-- ==== Sys2Proof/Word.lean ====
section
/-!
DEFINITION. The bit-vector widths of the EECS427-TC instruction set (00_scope.md R5) and the text type of the tool chain.
-/

namespace Sys2Proof

/-- A 16-bit word: a machine word, a general register, a data-memory slot, a CIM row (00_scope.md R5). -/
abbrev Word := BitVec 16

/-- A 4-bit field: an opcode, an extension code, a register index, a condition code, a 4-bit immediate (R5). -/
abbrev Nibble := BitVec 4

/-- An 8-bit immediate or displacement field (R5). -/
abbrev Byte := BitVec 8

/-- The twelve fixed bits of a FIXV word, bits 15:4 (30_encoding.md R51). -/
abbrev Bits12 := BitVec 12

/-- A data-memory address: the low 9 bits of an address register (20_memory.md R30). -/
abbrev SlotAddr := BitVec 9

/-- Text of the assembler and the disassembler, as a list of characters. -/
abbrev Text := List Char

end Sys2Proof
end

