-- ==== Sys2Proof/Syntax.lean ====
section
/-!
DEFINITION. The syntax of the EECS427-TC instruction set: the instructions (one constructor per row of
spec/opcode_table.json), the condition codes, the formats and descriptors of the registry, the field records, and the
values that encoder and decoder exchange.
-/

namespace Sys2Proof

/-- The sixteen condition names of 30_encoding.md R56, in the order of their codes. -/
inductive Cond where
  | eq | ne | cs | cc | hi | ls | gt | le | fs | fc | lo | hs | lt | ge | uc | nv
deriving DecidableEq, Repr

/-- The instructions, one constructor per row of `REG_DEFAULT` (30_encoding.md R60). `ra` is bits 11:8 and `rb` bits 3:0
of the word (00_scope.md R9). -/
inductive Instr where
  /-- ADD Rdest, Rsrc (42_alu.md R140). -/
  | add (ra rb : Nibble)
  /-- SUB Rdest, Rsrc (R142). -/
  | sub (ra rb : Nibble)
  /-- CMP Rdest, Rsrc (R144). -/
  | cmp (ra rb : Nibble)
  /-- AND Rdest, Rsrc (R146). -/
  | and (ra rb : Nibble)
  /-- OR Rdest, Rsrc (R148). -/
  | or (ra rb : Nibble)
  /-- XOR Rdest, Rsrc (R150). -/
  | xor (ra rb : Nibble)
  /-- MOV Rdest, Rsrc (R152). -/
  | mov (ra rb : Nibble)
  /-- ADDI Rdest, imm (R141). -/
  | addi (ra : Nibble) (imm8 : Byte)
  /-- SUBI Rdest, imm (R143). -/
  | subi (ra : Nibble) (imm8 : Byte)
  /-- CMPI Rdest, imm (R145). -/
  | cmpi (ra : Nibble) (imm8 : Byte)
  /-- ANDI Rdest, imm (R147). -/
  | andi (ra : Nibble) (imm8 : Byte)
  /-- ORI Rdest, imm (R149). -/
  | ori (ra : Nibble) (imm8 : Byte)
  /-- XORI Rdest, imm (R151). -/
  | xori (ra : Nibble) (imm8 : Byte)
  /-- MOVI Rdest, imm (R153). -/
  | movi (ra : Nibble) (imm8 : Byte)
  /-- LSH Rdest, Rsrc (43_shift.md R160). -/
  | lsh (ra rb : Nibble)
  /-- LSHI Rdest, imm, the amount in sign and magnitude (R161). -/
  | lshi (ra : Nibble) (s : Bool) (mag : Nibble)
  /-- LUI Rdest, imm (R162). -/
  | lui (ra : Nibble) (imm8 : Byte)
  /-- LOAD Rdest, Raddr (44_loadstore.md R170). -/
  | load (ra rb : Nibble)
  /-- STOR Rsrc, Raddr (R171). -/
  | stor (ra rb : Nibble)
  /-- BCOND cond, target (45_control.md R180). -/
  | bcond (cond : Cond) (disp : Byte)
  /-- JCOND cond, Rtarget (R181). -/
  | jcond (cond : Cond) (rb : Nibble)
  /-- JAL Rdest, Rsrc (R182). -/
  | jal (ra rb : Nibble)
  /-- WAIT (R183). -/
  | wait
  /-- DI (R184). -/
  | di
  /-- EI (R185). -/
  | ei
  /-- EXCP, its vector field known to the decoder only (R186). -/
  | excp (vec : Nibble)
  /-- STCR Rsrc, RCaddr (46_cim.md R198). -/
  | stcr (ra rb : Nibble)
  /-- STCM RCaddr, Raddr (R199). -/
  | stcm (ra rb : Nibble)
  /-- LDCR RCaddr, Rdest (R200). -/
  | ldcr (ra rb : Nibble)
  /-- SETQ imm (R202). -/
  | setq (imm4 : Nibble)
  /-- CMPT Rsrc, Raddr (R204). -/
  | cmpt (ra rb : Nibble)
deriving DecidableEq, Repr

/-- The mnemonics that have an execution rule (45_control.md R177): the 31 of `REG_DEFAULT`, in registry order. -/
inductive Mnemonic where
  | add | sub | cmp | and | or | xor | mov
  | addi | subi | cmpi | andi | ori | xori | movi
  | lsh | lshi | lui | load | stor
  | bcond | jcond | jal | wait | di | ei | excp
  | stcr | stcm | ldcr | setq | cmpt
deriving DecidableEq, Repr

/-- The format tags of 30_encoding.md R46; `other` is any value that is not one of the ten (R51). -/
inductive FormatTag where
  | rr | ri | ri4 | i4 | bcond | jcond | rs | ir | fix | fixv
  | other (name : Text)
deriving DecidableEq, Repr

/-- A format tag together with the constants that 30_encoding.md R51 says a descriptor of that tag carries, so that a
descriptor cannot lack a component its tag requires: the component part of WF4 (R53) holds by construction. -/
inductive Format where
  | rr (op ext : Nibble)
  | ri (op : Nibble)
  | ri4 (op : Nibble)
  | i4 (op ext : Nibble)
  | bcond (op : Nibble)
  | jcond (op ext : Nibble)
  | rs (op ext : Nibble)
  | ir (op : Nibble)
  | fix (fixed16 : Word)
  | fixv (fixed12 : Bits12)
  | other (name : Text)
deriving DecidableEq, Repr

/-- An instruction descriptor, one row of the registry (30_encoding.md R51). -/
structure Descriptor where
  mnemonic : Text
  format : Format
deriving DecidableEq, Repr

/-- A registry: a finite ordered list of descriptors (30_encoding.md R52). -/
abbrev Registry := List Descriptor

/-- The field records of 30_encoding.md R50, one shape per format tag. -/
inductive Fields where
  | rr (ra rb : Nibble)
  | ri (ra : Nibble) (imm8 : Byte)
  | ri4 (ra : Nibble) (s : Bool) (mag : Nibble)
  | i4 (imm4 : Nibble)
  | bcond (cond : Nibble) (disp : Byte)
  | jcond (cond rb : Nibble)
  | rs (ra rb : Nibble)
  | ir (ra : Nibble) (imm8 : Byte)
  | fix
  | fixv (vec : Nibble)
deriving DecidableEq, Repr

/-- The wires of the packer's field input in the gate-level reading of 40_encoder.md R80. -/
structure Wires where
  ra : Nibble := 0
  rb : Nibble := 0
  imm8 : Byte := 0
  s : Bool := false
  mag : Nibble := 0
  imm4 : Nibble := 0
  cond : Nibble := 0
  disp : Byte := 0
  vec : Nibble := 0
deriving DecidableEq, Repr

/-- A resolved operand, the input of `ENC.resolve` (40_encoder.md R94). -/
inductive Operand where
  | reg (n : Nat)
  | imm (v : Int)
  | cond (c : Nibble)
  | disp (d : Byte)
deriving DecidableEq, Repr

/-- The six error kinds of encoder and assembler (60_exceptions.md R216). They are values; none has a numeric code. -/
inductive EncError where
  | unknownMnemonic
  | badOperandCount
  | invalidRegister
  | invalidImmediate
  | immediateOutOfRange
  | unsupportedFormat
deriving DecidableEq, Repr

/-- The two outcomes of `DEC.decode` (41_decoder.md R110). -/
inductive DecodeResult where
  | recognized (d : Descriptor) (f : Fields)
  | unrecognized (w : Word)
deriving DecidableEq, Repr

/-- What the core has to do with a fetched word (45_control.md R177): an instruction with an execution rule, a word the
decoder does not recognize, or a descriptor for which the spec has no execution rule. -/
inductive Decoded where
  | instr (i : Instr)
  | unrecognized (w : Word)
  | noRule (mnemonic : Text)
deriving DecidableEq, Repr

end Sys2Proof
end

