-- ==== Sys2Proof/Config.lean ====
section
/-!
DEFINITION. The parameters the spec leaves to the environment (00_scope.md R6; 92_eei_decisions.md, "Parameters left
open") as plain data. Their default values are in Sys2Proof/Machine/Registry.lean. The spec leaves no result value open,
so there is no free value here.
-/

namespace Sys2Proof

/-- How an 8-bit immediate field becomes an integer when a word is executed (00_scope.md R6, `IMM8_POLICY`). -/
inductive ImmExt where
  | zext
  | sext
deriving DecidableEq, Repr

/-- `IMM8_POLICY`: one policy per RI mnemonic (00_scope.md R6; 42_alu.md R138). -/
structure Imm8Policy where
  addi : ImmExt
  subi : ImmExt
  cmpi : ImmExt
  andi : ImmExt
  ori : ImmExt
  xori : ImmExt
  movi : ImmExt
  lui : ImmExt
deriving DecidableEq, Repr

/-- `WAIT_POLICY` (00_scope.md R6; 45_control.md R183). -/
inductive WaitPolicy where
  | halt
  | nop
deriving DecidableEq, Repr

/-- The parameters of the model other than the program (00_scope.md R6). DESIGN CHOICE (log 2): they are carried in
`State` as read-only data, so that every statement about the machine holds for every choice of them. -/
structure Params where
  registry : Registry
  strictZeroBits : Bool
  imm8 : Imm8Policy
  wait : WaitPolicy
  stepLimit : Option Nat
deriving DecidableEq, Repr

/-- The largest `PROG_LEN` (00_scope.md R6; 92_eei_decisions.md D15). -/
abbrev maxProgLen : Nat := 32768

/-- The number of data-memory slots (00_scope.md R5). -/
abbrev dmemSlots : Nat := 512

end Sys2Proof
end

