-- ==== Sys2Proof/Machine/Bits.lean ====
section
/-!
DEFINITION. Bit slices, narrowing and sign extension (00_scope.md R7, R9).
-/

namespace Sys2Proof

/-- Bits 15:12, the field `op` (00_scope.md R9). -/
def opField (w : Word) : Nibble := w.extractLsb' 12 4

/-- Bits 11:8, the field `ra` or `cond`. -/
def raField (w : Word) : Nibble := w.extractLsb' 8 4

/-- Bits 7:4, the field `ext`. -/
def extField (w : Word) : Nibble := w.extractLsb' 4 4

/-- Bits 3:0, the field `rb`, `mag`, `imm4` or `vec`. -/
def rbField (w : Word) : Nibble := w.extractLsb' 0 4

/-- Bits 7:0, the field `imm8` or `disp`. -/
def imm8Field (w : Word) : Byte := w.extractLsb' 0 8

/-- Bit 4, the field `s` of format RI4. -/
def signField (w : Word) : Bool := w.getLsbD 4

/-- Bits 15:4, the fixed part of a FIXV word. -/
def top12Field (w : Word) : Bits12 := w.extractLsb' 4 12

/-- `sint_16(v)`: the two's-complement value of a 16-bit vector (00_scope.md R7). -/
def sint16 (v : Word) : Int := v.toInt

/-- `narrow16(n)`: the 16-bit vector whose unsigned value is `n mod 2^16` (00_scope.md R7). -/
def narrow16 (n : Int) : Word := BitVec.ofInt 16 n

/-- `sext_8(v)` as an integer (00_scope.md R7). -/
def sext8 (v : Byte) : Int := v.toInt

/-- `zext_8(v)` as an integer (00_scope.md R7). -/
def zext8 (v : Byte) : Int := (v.toNat : Int)

/-- Nibble `i` of a word, bits `4i+3:4i`, as a bit vector (00_scope.md R7). -/
def nibble (v : Word) (i : Fin 4) : Nibble := v.extractLsb' (4 * i.val) 4

/-- `snib(v, i) = sint_4(v[4i+3:4i])` (00_scope.md R7; 46_cim.md R194). -/
def snib (v : Word) (i : Fin 4) : Int := (nibble v i).toInt

/-- Four nibbles as one word, the first argument in bits 15:12 (concatenation of 00_scope.md R7). -/
def nibbles (n3 n2 n1 n0 : Nibble) : Word := n3 ++ n2 ++ n1 ++ n0

end Sys2Proof
end

