-- ==== Sys2Proof/Machine/Registry.lean ====
section
/-!
DEFINITION. The instruction registry (30_encoding.md R51 to R60): tags, lookup, mask and match, the condition-code table,
`REG_DEFAULT`, and the default parameters of 00_scope.md R6.
-/

namespace Sys2Proof

/-- A name in upper case, as every comparison of mnemonics, registers, conditions and labels is made
(30_encoding.md R51, R52, R63). -/
def upper (t : Text) : Text := t.map Char.toUpper

/-- The format tag of a format. -/
def Format.tag : Format → FormatTag
  | .rr _ _ => .rr
  | .ri _ => .ri
  | .ri4 _ => .ri4
  | .i4 _ _ => .i4
  | .bcond _ => .bcond
  | .jcond _ _ => .jcond
  | .rs _ _ => .rs
  | .ir _ => .ir
  | .fix _ => .fix
  | .fixv _ => .fixv
  | .other t => .other t

/-- Whether a tag is one of the ten (30_encoding.md R46, R51). -/
def FormatTag.supported : FormatTag → Bool
  | .other _ => false
  | _ => true

/-- The tag whose shape a field record has (30_encoding.md R50). -/
def Fields.tag : Fields → FormatTag
  | .rr _ _ => .rr
  | .ri _ _ => .ri
  | .ri4 _ _ _ => .ri4
  | .i4 _ => .i4
  | .bcond _ _ => .bcond
  | .jcond _ _ => .jcond
  | .rs _ _ => .rs
  | .ir _ _ => .ir
  | .fix => .fix
  | .fixv _ => .fixv

/-- The opcode of a format, present for every supported tag but FIX and FIXV (30_encoding.md R51). -/
def Format.op? : Format → Option Nibble
  | .rr op _ | .ri op | .ri4 op | .i4 op _ | .bcond op | .jcond op _ | .rs op _ | .ir op => some op
  | .fix _ | .fixv _ | .other _ => none

/-- The extension code of a format, present exactly for RR, I4, Jcond and RS (30_encoding.md R51). -/
def Format.ext? : Format → Option Nibble
  | .rr _ ext | .i4 _ ext | .jcond _ ext | .rs _ ext => some ext
  | .ri _ | .ri4 _ | .bcond _ | .ir _ | .fix _ | .fixv _ | .other _ => none

/-- `lookup(mnemonic)`: the descriptor whose mnemonic equals the argument in upper case (30_encoding.md R52). DESIGN CHOICE
(log 38): a registry that holds the mnemonic twice, so that it fails WF1, gives the first such descriptor in registry
order; the spec does not say which. -/
def lookup (reg : Registry) (m : Text) : Except EncError Descriptor :=
  match reg.find? (fun d => upper d.mnemonic == upper m) with
  | some d => .ok d
  | none => .error .unknownMnemonic

/-- `mask(d)` of 30_encoding.md R55; a tag that is not one of the ten has none. -/
def Format.mask (strict : Bool) : Format → Option Word
  | .rr _ _ | .rs _ _ | .jcond _ _ => some 0xF0F0#16
  | .i4 _ _ => some (if strict then 0xFFF0#16 else 0xF0F0#16)
  | .ri _ | .ir _ | .bcond _ => some 0xF000#16
  | .ri4 _ => some (if strict then 0xF0E0#16 else 0xF000#16)
  | .fix _ => some 0xFFFF#16
  | .fixv _ => some 0xFFF0#16
  | .other _ => none

/-- `match(d)` of 30_encoding.md R55; a tag that is not one of the ten has none. -/
def Format.matchBits : Format → Option Word
  | .rr op ext | .rs op ext | .jcond op ext | .i4 op ext => some (nibbles op 0 ext 0)
  | .ri op | .ir op | .bcond op | .ri4 op => some (nibbles op 0 0 0)
  | .fix w => some w
  | .fixv t => some (t ++ 0#4)
  | .other _ => none

/-- A format selects the word `w` when `w & mask = match` (30_encoding.md R54); one without a mask selects none. -/
def Format.selects (strict : Bool) (fmt : Format) (w : Word) : Bool :=
  match fmt.mask strict, fmt.matchBits with
  | some m, some v => w &&& m == v
  | _, _ => false

/-- The condition code of a condition name (30_encoding.md R56). -/
def Cond.code : Cond → Nibble
  | .eq => 0 | .ne => 1 | .cs => 2 | .cc => 3 | .hi => 4 | .ls => 5 | .gt => 6 | .le => 7
  | .fs => 8 | .fc => 9 | .lo => 10 | .hs => 11 | .lt => 12 | .ge => 13 | .uc => 14 | .nv => 15

/-- All conditions in the order of their codes (30_encoding.md R56). -/
def condAll : List Cond :=
  [.eq, .ne, .cs, .cc, .hi, .ls, .gt, .le, .fs, .fc, .lo, .hs, .lt, .ge, .uc, .nv]

/-- The reverse lookup of the condition table, total on the sixteen codes (30_encoding.md R56). -/
def Cond.ofCode (c : Nibble) : Cond :=
  match condAll[c.toNat]? with
  | some k => k
  | none => .nv

/-- The name of a condition, in upper case (30_encoding.md R56; 41_decoder.md R123). -/
def Cond.name : Cond → Text
  | .eq => "EQ".toList | .ne => "NE".toList | .cs => "CS".toList | .cc => "CC".toList
  | .hi => "HI".toList | .ls => "LS".toList | .gt => "GT".toList | .le => "LE".toList
  | .fs => "FS".toList | .fc => "FC".toList | .lo => "LO".toList | .hs => "HS".toList
  | .lt => "LT".toList | .ge => "GE".toList | .uc => "UC".toList | .nv => "NV".toList

/-- The condition of a name, compared without regard to case (30_encoding.md R56, R69). -/
def condOfName (t : Text) : Option Cond := condAll.find? (fun c => c.name == upper t)

/-- The mnemonics of `REG_DEFAULT` (30_encoding.md R60). -/
def Mnemonic.name : Mnemonic → Text
  | .add => "ADD".toList | .sub => "SUB".toList | .cmp => "CMP".toList | .and => "AND".toList
  | .or => "OR".toList | .xor => "XOR".toList | .mov => "MOV".toList
  | .addi => "ADDI".toList | .subi => "SUBI".toList | .cmpi => "CMPI".toList | .andi => "ANDI".toList
  | .ori => "ORI".toList | .xori => "XORI".toList | .movi => "MOVI".toList
  | .lsh => "LSH".toList | .lshi => "LSHI".toList | .lui => "LUI".toList
  | .load => "LOAD".toList | .stor => "STOR".toList
  | .bcond => "BCOND".toList | .jcond => "JCOND".toList | .jal => "JAL".toList
  | .wait => "WAIT".toList | .di => "DI".toList | .ei => "EI".toList | .excp => "EXCP".toList
  | .stcr => "STCR".toList | .stcm => "STCM".toList | .ldcr => "LDCR".toList
  | .setq => "SETQ".toList | .cmpt => "CMPT".toList

/-- The mnemonics in registry order. -/
def mnemonicAll : List Mnemonic :=
  [.add, .sub, .cmp, .and, .or, .xor, .mov, .addi, .subi, .cmpi, .andi, .ori, .xori, .movi, .lsh, .lshi, .lui, .load,
   .stor, .bcond, .jcond, .jal, .wait, .di, .ei, .excp, .stcr, .stcm, .ldcr, .setq, .cmpt]

/-- The execution rule a descriptor's mnemonic names, if there is one (45_control.md R177), without regard to case. -/
def mnemonicOf (t : Text) : Option Mnemonic := mnemonicAll.find? (fun m => m.name == upper t)

/-- The tag and the values of each row of `REG_DEFAULT` (30_encoding.md R60). PRESUMED (log 4): but for ADD, ADDI, LSHI
and BCOND the spec takes the values from general knowledge, and those of the CIM rows are its placeholders. -/
def Mnemonic.format : Mnemonic → Format
  | .add => .rr 0x0 0x5
  | .sub => .rr 0x0 0x9
  | .cmp => .rr 0x0 0xB
  | .and => .rr 0x0 0x1
  | .or => .rr 0x0 0x2
  | .xor => .rr 0x0 0x3
  | .mov => .rr 0x0 0xD
  | .addi => .ri 0x5
  | .subi => .ri 0x9
  | .cmpi => .ri 0xB
  | .andi => .ri 0x1
  | .ori => .ri 0x2
  | .xori => .ri 0x3
  | .movi => .ri 0xD
  | .lsh => .rr 0x8 0x4
  | .lshi => .ri4 0x8
  | .lui => .ri 0xF
  | .load => .rr 0x4 0x0
  | .stor => .rs 0x4 0x4
  | .bcond => .bcond 0xC
  | .jcond => .jcond 0x4 0xC
  | .jal => .rr 0x4 0x8
  | .wait => .fix 0x0000
  | .di => .fix 0x4030
  | .ei => .fix 0x4070
  | .excp => .fixv 0x40B
  | .stcr => .rs 0xE 0x1
  | .stcm => .rs 0xE 0x2
  | .ldcr => .rs 0xE 0x3
  | .setq => .i4 0xE 0x4
  | .cmpt => .rs 0xE 0x5

/-- The row of `REG_DEFAULT` of a mnemonic. -/
def Mnemonic.descriptor (m : Mnemonic) : Descriptor := ⟨m.name, m.format⟩

/-- `REG_DEFAULT`, in registry order (30_encoding.md R60). -/
def regDefault : Registry := mnemonicAll.map Mnemonic.descriptor

/-- The default `IMM8_POLICY` (00_scope.md R6). PRESUMED (log 6): the spec takes it from general knowledge (D18, G4). -/
def imm8Default : Imm8Policy where
  addi := .sext
  subi := .sext
  cmpi := .sext
  andi := .zext
  ori := .zext
  xori := .zext
  movi := .zext
  lui := .zext

/-- The default parameters (00_scope.md R6): `REG_DEFAULT`, strict zero bits (log 5), the default immediate policy, WAIT
halts (log 7), no step limit (log 31). -/
def paramsDefault : Params where
  registry := regDefault
  strictZeroBits := true
  imm8 := imm8Default
  wait := .halt
  stepLimit := none

end Sys2Proof
end

