-- ==== Sys2Proof/WellFormed.lean ====
section
/-!
DEFINITION. Well-formedness: of a registry (30_encoding.md R53, R54), of an instruction (45_control.md R182), of a program
(00_scope.md R6).
-/

namespace Sys2Proof

/-- `rel a b` for every `a` that stands before `b` in the list. -/
def pairwiseB {α : Type} (rel : α → α → Bool) : List α → Bool
  | [] => true
  | x :: xs => xs.all (rel x) && pairwiseB rel xs

/-- (WF1) No two descriptors have the same mnemonic after case folding (30_encoding.md R53). -/
def wf1 (reg : Registry) : Bool := pairwiseB (fun d e => upper d.mnemonic != upper e.mnemonic) reg

/-- Two formats whose fixed patterns do not overlap in the sense of WF2 (30_encoding.md R53). -/
def fixedApart : Format → Format → Bool
  | .fix v, .fix w => v != w
  | .fixv t, .fixv u => t != u
  | .fix v, .fixv t => top12Field v != t
  | .fixv t, .fix v => top12Field v != t
  | _, _ => true

/-- (WF2) No overlapping FIX and FIXV patterns (30_encoding.md R53). -/
def wf2 (reg : Registry) : Bool := pairwiseB (fun d e => fixedApart d.format e.format) reg

/-- Whether two formats have different (opcode, tag, extension) triples; FIX and FIXV have no triple. -/
def tripleApart (a b : Format) : Bool :=
  match a.op?, b.op? with
  | some p, some q => !(p == q && a.tag == b.tag && a.ext? == b.ext?)
  | _, _ => true

/-- (WF3) Never two entries with the same (opcode, format tag, extension code) triple (30_encoding.md R53). -/
def wf3 (reg : Registry) : Bool := pairwiseB (fun d e => tripleApart d.format e.format) reg

/-- (WF4) Every tag is one of the ten (30_encoding.md R53); the components a tag requires are there by construction. -/
def wf4 (reg : Registry) : Bool := reg.all (fun d => d.format.tag.supported)

/-- Two formats whose selected sets are disjoint, by the test of WF5 (30_encoding.md R54). -/
def disjointFormats (strict : Bool) (a b : Format) : Bool :=
  match a.mask strict, a.matchBits, b.mask strict, b.matchBits with
  | some m1, some v1, some m2, some v2 => (v1 ^^^ v2) &&& m1 &&& m2 != 0
  | _, _, _, _ => true

/-- (WF5) The sets of words selected by any two distinct descriptors are disjoint (30_encoding.md R54). -/
def wf5 (strict : Bool) (reg : Registry) : Bool := pairwiseB (fun d e => disjointFormats strict d.format e.format) reg

/-- A registry is well-formed (30_encoding.md R53). -/
def registryWf (reg : Registry) : Bool := wf1 reg && wf2 reg && wf3 reg && wf4 reg

/-- A registry is strongly well-formed under a setting of `STRICT_ZERO_BITS` (30_encoding.md R54). -/
def registryStrong (strict : Bool) (reg : Registry) : Bool := registryWf reg && wf5 strict reg

/-- An instruction a well-formed program may hold: "a well-formed program has no JAL with ra = rb" (45_control.md R182).
Every other field has exactly its width (30_encoding.md R50), so every other instruction is well-formed. -/
def Instr.wf : Instr → Bool
  | .jal ra rb => ra != rb
  | _ => true

/-- A program's length is 0 to 32768 (00_scope.md R6, `PROG_LEN`). -/
def programWf (prog : List Word) : Bool := prog.length ≤ maxProgLen

end Sys2Proof
end

