-- ==== Sys2Proof/Decode.lean ====
section
/-!
DEFINITION. The decoder (41_decoder.md R110 to R117), and after it the encoder: `ENC.pack`, `ENC.resolve`, `ENC.encode`
(40_encoder.md R80 to R103) and the word of an instruction under `REG_DEFAULT`.
-/

namespace Sys2Proof

/-! ### The decoder -/

/-- Stage 1: an exact 16-bit match of a FIX descriptor (41_decoder.md R111). -/
def fixStage (w : Word) (d : Descriptor) : Bool :=
  match d.format with
  | .fix v => w == v
  | _ => false

/-- Stage 2: a match on the top 12 bits of a FIXV descriptor (41_decoder.md R112). -/
def fixvStage (w : Word) (d : Descriptor) : Bool :=
  match d.format with
  | .fixv t => top12Field w == t
  | _ => false

/-- Stage 3: selection by mask and match of a descriptor that is neither FIX nor FIXV (41_decoder.md R113, R114). -/
def opcodeStage (strict : Bool) (w : Word) (d : Descriptor) : Bool :=
  match d.format with
  | .fix _ | .fixv _ => false
  | fmt => fmt.selects strict w

/-- `extract(tag, w)` (41_decoder.md R115). A tag that is not one of the ten is never selected and has no record. -/
def extract (fmt : Format) (w : Word) : Fields :=
  match fmt with
  | .rr _ _ => .rr (raField w) (rbField w)
  | .ri _ => .ri (raField w) (imm8Field w)
  | .ri4 _ => .ri4 (raField w) (signField w) (rbField w)
  | .i4 _ _ => .i4 (rbField w)
  | .bcond _ => .bcond (raField w) (imm8Field w)
  | .jcond _ _ => .jcond (raField w) (rbField w)
  | .rs _ _ => .rs (raField w) (rbField w)
  | .ir _ => .ir (raField w) (imm8Field w)
  | .fix _ => .fix
  | .fixv _ => .fixv (rbField w)
  | .other _ => .fix

/-- `DEC.decode` (41_decoder.md R117): three stages, each in registry order, the first match wins. -/
def decode (reg : Registry) (strict : Bool) (w : Word) : DecodeResult :=
  match reg.find? (fixStage w) with
  | some d => .recognized d (extract d.format w)
  | none =>
    match reg.find? (fixvStage w) with
    | some d => .recognized d (extract d.format w)
    | none =>
      match reg.find? (opcodeStage strict w) with
      | some d => .recognized d (extract d.format w)
      | none => .unrecognized w

/-- The field `ra` of a record that has one (00_scope.md R9). -/
def Fields.ra? : Fields → Option Nibble
  | .rr ra _ | .ri ra _ | .ri4 ra _ _ | .rs ra _ | .ir ra _ => some ra
  | .i4 _ | .bcond _ _ | .jcond _ _ | .fix | .fixv _ => none

/-- The field `rb` of a record that has one. -/
def Fields.rb? : Fields → Option Nibble
  | .rr _ rb | .jcond _ rb | .rs _ rb => some rb
  | .ri _ _ | .ri4 _ _ _ | .i4 _ | .bcond _ _ | .ir _ _ | .fix | .fixv _ => none

/-- The field `imm8` of a record that has one. -/
def Fields.imm8? : Fields → Option Byte
  | .ri _ b | .ir _ b => some b
  | .rr _ _ | .ri4 _ _ _ | .i4 _ | .bcond _ _ | .jcond _ _ | .rs _ _ | .fix | .fixv _ => none

/-- The field `cond` of a record that has one. -/
def Fields.cond? : Fields → Option Nibble
  | .bcond c _ | .jcond c _ => some c
  | .rr _ _ | .ri _ _ | .ri4 _ _ _ | .i4 _ | .rs _ _ | .ir _ _ | .fix | .fixv _ => none

/-- An instruction of two register fields. -/
def Fields.twoRegs (f : Fields) (k : Nibble → Nibble → Instr) : Option Instr :=
  match f.ra?, f.rb? with
  | some ra, some rb => some (k ra rb)
  | _, _ => none

/-- An instruction of a register field and an 8-bit immediate. -/
def Fields.regImm8 (f : Fields) (k : Nibble → Byte → Instr) : Option Instr :=
  match f.ra?, f.imm8? with
  | some ra, some b => some (k ra b)
  | _, _ => none

/-- The instruction of a mnemonic with the fields of a record (45_control.md R177: "execute the rule of d.mnemonic with
the fields f"). DESIGN CHOICE (log 18): a record that lacks a field the rule names gives none; WAIT, DI and EI name no
field. -/
def Mnemonic.build : Mnemonic → Fields → Option Instr
  | .add, f => f.twoRegs .add
  | .sub, f => f.twoRegs .sub
  | .cmp, f => f.twoRegs .cmp
  | .and, f => f.twoRegs .and
  | .or, f => f.twoRegs .or
  | .xor, f => f.twoRegs .xor
  | .mov, f => f.twoRegs .mov
  | .addi, f => f.regImm8 .addi
  | .subi, f => f.regImm8 .subi
  | .cmpi, f => f.regImm8 .cmpi
  | .andi, f => f.regImm8 .andi
  | .ori, f => f.regImm8 .ori
  | .xori, f => f.regImm8 .xori
  | .movi, f => f.regImm8 .movi
  | .lsh, f => f.twoRegs .lsh
  | .lshi, .ri4 ra s mag => some (.lshi ra s mag)
  | .lshi, _ => none
  | .lui, f => f.regImm8 .lui
  | .load, f => f.twoRegs .load
  | .stor, f => f.twoRegs .stor
  | .bcond, .bcond c disp => some (.bcond (Cond.ofCode c) disp)
  | .bcond, _ => none
  | .jcond, f =>
    match f.cond?, f.rb? with
    | some c, some rb => some (.jcond (Cond.ofCode c) rb)
    | _, _ => none
  | .jal, f => f.twoRegs .jal
  | .wait, _ => some .wait
  | .di, _ => some .di
  | .ei, _ => some .ei
  | .excp, .fixv vec => some (.excp vec)
  | .excp, _ => none
  | .stcr, f => f.twoRegs .stcr
  | .stcm, f => f.twoRegs .stcm
  | .ldcr, f => f.twoRegs .ldcr
  | .setq, .i4 imm4 => some (.setq imm4)
  | .setq, _ => none
  | .cmpt, f => f.twoRegs .cmpt

/-- What the core does with a fetched word: decode, then dispatch on the mnemonic of the matched descriptor, "not on its
opcode value" (45_control.md R177). -/
def decodeWord (reg : Registry) (strict : Bool) (w : Word) : Decoded :=
  match decode reg strict w with
  | .unrecognized w => .unrecognized w
  | .recognized d f =>
    match (mnemonicOf d.mnemonic).bind (fun m => m.build f) with
    | some i => .instr i
    | none => .noRule d.mnemonic

/-- The instruction of a word, if the word has one. -/
def decodeInstr (reg : Registry) (strict : Bool) (w : Word) : Option Instr :=
  match decodeWord reg strict w with
  | .instr i => some i
  | _ => none

/-- The instruction the decoder reads, with `REG_DEFAULT` and strict zero bits, from an instruction whose low `nbits`
bits are those of `w`, numbered as spec/opcode_table.json numbers them. Every instruction is one 16-bit word
(30_encoding.md R45). -/
def decodeTableWord (nbits w : Nat) : Option Instr :=
  decodeInstr regDefault true (BitVec.ofNat 16 (w % 2 ^ nbits))

/-! ### The packer -/

/-- The field record as wires (40_encoder.md R80): a wire the record does not have is 0 (DESIGN CHOICE, log 25). -/
def Fields.wires : Fields → Wires
  | .rr ra rb => { ra := ra, rb := rb }
  | .ri ra imm8 => { ra := ra, imm8 := imm8 }
  | .ri4 ra s mag => { ra := ra, s := s, mag := mag }
  | .i4 imm4 => { imm4 := imm4 }
  | .bcond cond disp => { cond := cond, disp := disp }
  | .jcond cond rb => { cond := cond, rb := rb }
  | .rs ra rb => { ra := ra, rb := rb }
  | .ir ra imm8 => { ra := ra, imm8 := imm8 }
  | .fix => {}
  | .fixv vec => { vec := vec }

/-- The high nibble of a byte, `b[7:4]`. -/
def hiNibble (b : Byte) : Nibble := b.extractLsb' 4 4

/-- The low nibble of a byte, `b[3:0]`. -/
def loNibble (b : Byte) : Nibble := b.extractLsb' 0 4

/-- The five wirings of the output word (40_encoder.md R81), or `UnsupportedFormat` (R93). The zeros in bits 11:8 of an I4
word are the spec's decision D8 (log 39), a FIXV vector that is not 0 its decision D12 (log 26). -/
def packWires (fmt : Format) (x : Wires) : Except EncError Word :=
  match fmt with
  | .rr op ext => .ok (nibbles op x.ra ext x.rb)
  | .rs op ext => .ok (nibbles op x.ra ext x.rb)
  | .jcond op ext => .ok (nibbles op x.cond ext x.rb)
  | .i4 op ext => .ok (nibbles op 0 ext x.imm4)
  | .ri op => .ok (nibbles op x.ra (hiNibble x.imm8) (loNibble x.imm8))
  | .ir op => .ok (nibbles op x.ra (hiNibble x.imm8) (loNibble x.imm8))
  | .bcond op => .ok (nibbles op x.cond (hiNibble x.disp) (loNibble x.disp))
  | .ri4 op => .ok (nibbles op x.ra (0#3 ++ BitVec.ofBool x.s) x.mag)
  | .fix fixed16 => .ok fixed16
  | .fixv fixed12 => .ok (fixed12 ++ x.vec)
  | .other _ => .error .unsupportedFormat

/-- `ENC.pack(desc, f)` (40_encoder.md R80 to R93). -/
def pack (d : Descriptor) (f : Fields) : Except EncError Word := packWires d.format f.wires

/-! ### The resolver -/

/-- Resolve a register number (40_encoder.md R95). -/
def resolveRegNum (n : Nat) : Except EncError Nibble :=
  if n ≤ 15 then .ok (BitVec.ofNat 4 n) else .error .invalidRegister

/-- Resolve an 8-bit immediate (40_encoder.md R96). -/
def resolveImm8Val (v : Int) : Except EncError Byte :=
  if -128 ≤ v ∧ v ≤ 255 then .ok (BitVec.ofInt 8 v) else .error .immediateOutOfRange

/-- Resolve a sign-and-magnitude immediate (40_encoder.md R97). -/
def resolveSignMagVal (v : Int) : Except EncError (Bool × Nibble) :=
  if 16 ≤ v.natAbs then .error .immediateOutOfRange else .ok (decide (v < 0), BitVec.ofNat 4 v.natAbs)

/-- Resolve a 4-bit immediate (40_encoder.md R98). -/
def resolveImm4Val (v : Int) : Except EncError Nibble :=
  if 0 ≤ v ∧ v ≤ 15 then .ok (BitVec.ofInt 4 v) else .error .immediateOutOfRange

/-- How each kind of operand is read from an operand of type `α`, each giving a field or one error kind. -/
structure OperandReader (α : Type) where
  reg : α → Except EncError Nibble
  imm8 : α → Except EncError Byte
  signMag : α → Except EncError (Bool × Nibble)
  imm4 : α → Except EncError Nibble
  cond : α → Except EncError Nibble
  disp : α → Except EncError Byte

/-- Operand count and order per tag (30_encoding.md R68; 40_encoder.md R101), with the order of checks of 40_encoder.md
R102: the tag, the count, then the operands from first to last. The counts and the order are the spec's decision D14
(log 27), the vector 0 of FIXV is R100. -/
def resolveWith {α : Type} (rd : OperandReader α) (tag : FormatTag) (ops : List α) : Except EncError Fields :=
  match tag, ops with
  | .other _, _ => .error .unsupportedFormat
  | .rr, [a, b] => do let ra ← rd.reg a; let rb ← rd.reg b; .ok (.rr ra rb)
  | .ri, [a, b] => do let ra ← rd.reg a; let v ← rd.imm8 b; .ok (.ri ra v)
  | .ri4, [a, b] => do let ra ← rd.reg a; let v ← rd.signMag b; .ok (.ri4 ra v.1 v.2)
  | .i4, [a] => do let v ← rd.imm4 a; .ok (.i4 v)
  | .bcond, [a, b] => do let c ← rd.cond a; let v ← rd.disp b; .ok (.bcond c v)
  | .jcond, [a, b] => do let c ← rd.cond a; let rb ← rd.reg b; .ok (.jcond c rb)
  | .rs, [a, b] => do let ra ← rd.reg a; let rb ← rd.reg b; .ok (.rs ra rb)
  | .ir, [a, b] => do let ra ← rd.reg a; let v ← rd.imm8 b; .ok (.ir ra v)
  | .fix, [] => .ok .fix
  | .fixv, [] => .ok (.fixv 0)
  | _, _ => .error .badOperandCount

/-- The reader of resolved operands (40_encoder.md R95 to R99). An operand of another kind fails with `InvalidRegister`
where a register is expected and with `InvalidImmediate` elsewhere (R95, R96; DESIGN CHOICE for a condition or a
displacement, log 27). -/
def operandReader : OperandReader Operand where
  reg
    | .reg n => resolveRegNum n
    | _ => .error .invalidRegister
  imm8
    | .imm v => resolveImm8Val v
    | _ => .error .invalidImmediate
  signMag
    | .imm v => resolveSignMagVal v
    | _ => .error .invalidImmediate
  imm4
    | .imm v => resolveImm4Val v
    | _ => .error .invalidImmediate
  cond
    | .cond c => .ok c
    | _ => .error .invalidImmediate
  disp
    | .disp d => .ok d
    | _ => .error .invalidImmediate

/-- `ENC.resolve(desc, ops)` (40_encoder.md R94 to R102). -/
def resolve (d : Descriptor) (ops : List Operand) : Except EncError Fields :=
  resolveWith operandReader d.format.tag ops

/-- `ENC.encode(registry, mnemonic, ops)` (40_encoder.md R103). Which descriptor a registry that fails WF1 gives is `lookup`'s
choice (log 38). -/
def encodeOps (reg : Registry) (m : Text) (ops : List Operand) : Except EncError Word := do
  let d ← lookup reg m
  let f ← resolve d ops
  pack d f

/-! ### The word of an instruction -/

/-- The mnemonic of an instruction. -/
def Instr.mnemonic : Instr → Mnemonic
  | .add _ _ => .add
  | .sub _ _ => .sub
  | .cmp _ _ => .cmp
  | .and _ _ => .and
  | .or _ _ => .or
  | .xor _ _ => .xor
  | .mov _ _ => .mov
  | .addi _ _ => .addi
  | .subi _ _ => .subi
  | .cmpi _ _ => .cmpi
  | .andi _ _ => .andi
  | .ori _ _ => .ori
  | .xori _ _ => .xori
  | .movi _ _ => .movi
  | .lsh _ _ => .lsh
  | .lshi _ _ _ => .lshi
  | .lui _ _ => .lui
  | .load _ _ => .load
  | .stor _ _ => .stor
  | .bcond _ _ => .bcond
  | .jcond _ _ => .jcond
  | .jal _ _ => .jal
  | .wait => .wait
  | .di => .di
  | .ei => .ei
  | .excp _ => .excp
  | .stcr _ _ => .stcr
  | .stcm _ _ => .stcm
  | .ldcr _ _ => .ldcr
  | .setq _ => .setq
  | .cmpt _ _ => .cmpt

/-- The field record of an instruction, of the shape its `REG_DEFAULT` row has (30_encoding.md R60). -/
def Instr.fields : Instr → Fields
  | .add ra rb | .sub ra rb | .cmp ra rb | .and ra rb | .or ra rb | .xor ra rb | .mov ra rb => .rr ra rb
  | .lsh ra rb | .load ra rb | .jal ra rb => .rr ra rb
  | .addi ra b | .subi ra b | .cmpi ra b | .andi ra b | .ori ra b | .xori ra b | .movi ra b | .lui ra b => .ri ra b
  | .lshi ra s mag => .ri4 ra s mag
  | .stor ra rb | .stcr ra rb | .stcm ra rb | .ldcr ra rb | .cmpt ra rb => .rs ra rb
  | .bcond c disp => .bcond c.code disp
  | .jcond c rb => .jcond c.code rb
  | .wait | .di | .ei => .fix
  | .excp vec => .fixv vec
  | .setq imm4 => .i4 imm4

/-- The word of an instruction under an arbitrary registry: look its mnemonic up and pack its fields
(40_encoder.md R103). -/
def encodeWith (reg : Registry) (i : Instr) : Except EncError Word := do
  let d ← lookup reg i.mnemonic.name
  pack d i.fields

/-- The word of an instruction under `REG_DEFAULT` (log 4), written out from the opcode map (30_encoding.md R46, R60, R61).
EXCP with a vector that is not 0 is the spec's decision D12 (log 26), the zeros of SETQ its decision D8 (log 39). -/
def encode : Instr → Word
  | .add ra rb => nibbles 0x0 ra 0x5 rb
  | .sub ra rb => nibbles 0x0 ra 0x9 rb
  | .cmp ra rb => nibbles 0x0 ra 0xB rb
  | .and ra rb => nibbles 0x0 ra 0x1 rb
  | .or ra rb => nibbles 0x0 ra 0x2 rb
  | .xor ra rb => nibbles 0x0 ra 0x3 rb
  | .mov ra rb => nibbles 0x0 ra 0xD rb
  | .addi ra imm8 => 0x5#4 ++ ra ++ imm8
  | .subi ra imm8 => 0x9#4 ++ ra ++ imm8
  | .cmpi ra imm8 => 0xB#4 ++ ra ++ imm8
  | .andi ra imm8 => 0x1#4 ++ ra ++ imm8
  | .ori ra imm8 => 0x2#4 ++ ra ++ imm8
  | .xori ra imm8 => 0x3#4 ++ ra ++ imm8
  | .movi ra imm8 => 0xD#4 ++ ra ++ imm8
  | .lsh ra rb => nibbles 0x8 ra 0x4 rb
  | .lshi ra s mag => nibbles 0x8 ra (if s then 1 else 0) mag
  | .lui ra imm8 => 0xF#4 ++ ra ++ imm8
  | .load ra rb => nibbles 0x4 ra 0x0 rb
  | .stor ra rb => nibbles 0x4 ra 0x4 rb
  | .bcond c disp => 0xC#4 ++ c.code ++ disp
  | .jcond c rb => nibbles 0x4 c.code 0xC rb
  | .jal ra rb => nibbles 0x4 ra 0x8 rb
  | .wait => 0x0000#16
  | .di => 0x4030#16
  | .ei => 0x4070#16
  | .excp vec => nibbles 0x4 0x0 0xB vec
  | .stcr ra rb => nibbles 0xE ra 0x1 rb
  | .stcm ra rb => nibbles 0xE ra 0x2 rb
  | .ldcr ra rb => nibbles 0xE ra 0x3 rb
  | .setq imm4 => nibbles 0xE 0x0 0x4 imm4
  | .cmpt ra rb => nibbles 0xE ra 0x5 rb

end Sys2Proof
end

