-- ==== Sys2Proof/Machine/State.lean ====
section
/-!
DEFINITION. The state of the reference core and the CIM datapath as plain data (10_state.md), the reasons a step can stop,
and the state after reset (70_reset_and_hazards.md R236).
-/

namespace Sys2Proof.Machine

/-- The reasons a step can stop with `Outcome.fault`: none. The spec's two fault kinds, `NegativeShift` and `CimIndex`, do
not stop the model: they are run states that the machine enters by a step (60_exceptions.md R222; `FaultKind` below;
log 13, 14, 20), and no address is ever out of range (20_memory.md R31). Nobody raises a `Fault`, which is safe. -/
inductive Fault : Type
deriving DecidableEq, Repr

/-- The reasons a step has no meaning ("a model refuses", 60_exceptions.md R227). All of them are safe: nothing can be
proved about a run past a refusal. -/
inductive Refusal where
  /-- Raised by `exec` for an instruction without a meaning; no instruction is left without one. Safe. -/
  | notModelled (mnemonic : String)
  /-- Raised by JAL when the link and the target are the same register (45_control.md R182, 60_exceptions.md R227;
  log 15). Safe. -/
  | jalSameRegister (r : Nibble)
  /-- Raised by EXCP (45_control.md R186, 60_exceptions.md R227; log 16). Safe. -/
  | excpHasNoMeaning (vec : Nibble)
  /-- Raised by `step` on a descriptor whose mnemonic has no execution rule, or whose tag gives no field that the rule
  names (45_control.md R177, 60_exceptions.md R227; log 18). Safe. -/
  | noExecutionRule (mnemonic : Text)
deriving DecidableEq, Repr

/-- Why a run ends normally (10_state.md R24; 60_exceptions.md R223). -/
inductive HaltReason where
  | programEnd
  | wait
deriving DecidableEq, Repr

/-- The two fault kinds with the value each carries (60_exceptions.md R222). -/
inductive FaultKind where
  /-- LSHI with a negative amount; carries the amount (43_shift.md R161). -/
  | negativeShift (amount : Int)
  /-- STCR or LDCR with a row index outside 0 to 15; carries the index (46_cim.md R198, R200). -/
  | cimIndex (index : Int)
deriving DecidableEq, Repr

/-- The run state (10_state.md R24). -/
inductive RunState where
  | running
  | halted (reason : HaltReason)
  | faulted (kind : FaultKind)
deriving DecidableEq, Repr

/-- The five flags (10_state.md R18). `c` and `l` are never written (R20). -/
structure Flags where
  z : Bool
  n : Bool
  f : Bool
  c : Bool
  l : Bool
deriving DecidableEq, Repr

/-- A slot of data memory that is listed: its address and its content. The smallest unit the machine addresses is the
16-bit slot (20_memory.md R30, R35; log 19). -/
abbrev Slot := Nat × Word

/-- Data memory as a list of slots; its canonical form is `Memory.wf` of Sys2Proof/Machine/Ops.lean. -/
abbrev Memory := List Slot

/-- The state (10_state.md, summary table), and with it the program and the parameters, which no instruction changes
(10_state.md R10; log 1, log 2). -/
structure State where
  /-- `x[0]` to `x[15]` (R12). -/
  regs : Vector Word 16
  /-- The program counter, a mathematical integer (R15; log 8). -/
  pc : Int
  /-- `Z`, `N`, `F`, `C`, `L` (R18). -/
  flags : Flags
  /-- The quantization-shift register `Q` (R23). -/
  q : Nibble
  /-- `CIM[0]` to `CIM[15]` (R25). -/
  cim : Vector Word 16
  /-- `DMEM[0]` to `DMEM[511]` (R27). -/
  dmem : Memory
  /-- The run state (R24). -/
  run : RunState
  /-- `PROG` (00_scope.md R6; 20_memory.md R40). The model's own field (log 1). -/
  prog : List Word
  /-- The parameters (00_scope.md R6). The model's own field (log 2). -/
  cfg : Params
deriving DecidableEq, Repr

/-- What a step of the machine answers. -/
abbrev Result := Host.Outcome State Fault Refusal

/-- The state after reset (70_reset_and_hazards.md R236). The flags are false by the spec's decision D16 (log 9); the
program is empty and the parameters have their defaults (log 1, 2, 3). -/
def State.reset : State where
  regs := Vector.replicate 16 0
  pc := 0
  flags := { z := false, n := false, f := false, c := false, l := false }
  q := 0
  cim := Vector.replicate 16 0
  dmem := []
  run := .running
  prog := []
  cfg := paramsDefault

end Sys2Proof.Machine
end

