-- ==== Sys2Proof/Machine/Ops.lean ====
section
/-!
DEFINITION. The named operations over registers, memories, program counter and run state that the meanings share.
-/

namespace Sys2Proof.Machine

/-! ### Data memory -/

/-- What a slot that is not listed reads as: the reset content (10_state.md R28). -/
def unlistedSlot : Word := 0

/-- The content of the slot at an address (20_memory.md R31). -/
def Memory.read (m : Memory) (a : Nat) : Word :=
  match m.find? (fun c => c.1 == a) with
  | some c => c.2
  | none => unlistedSlot

/-- A slot put at its place in rising order of addresses. -/
def Memory.insert (a : Nat) (v : Word) : Memory → Memory
  | [] => [(a, v)]
  | c :: cs => if a < c.1 then (a, v) :: c :: cs else c :: Memory.insert a v cs

/-- The memory with the slot at an address set (20_memory.md R31), in canonical form: writing what an unlisted slot reads
as removes the entry. -/
def Memory.write (m : Memory) (a : Nat) (v : Word) : Memory :=
  let rest := m.filter (fun c => c.1 != a)
  if v = unlistedSlot then rest else Memory.insert a v rest

/-- The canonical form: addresses strictly rising and in range, no entry equal to what an unlisted slot reads as. -/
def Memory.wf : Memory → Bool
  | [] => true
  | c :: cs => decide (c.1 < dmemSlots) && c.2 != unlistedSlot && cs.all (fun d => decide (c.1 < d.1)) && Memory.wf cs

/-- `MemRead(a, 1)` (20_memory.md R31). -/
def State.memRead (s : State) (a : SlotAddr) : Word := Memory.read s.dmem a.toNat

/-- `MemWrite(a, 1, v)` (20_memory.md R31). -/
def State.memWrite (a : SlotAddr) (v : Word) (s : State) : State := { s with dmem := Memory.write s.dmem a.toNat v }

/-! ### General registers -/

/-- `x[i]` (10_state.md R12). -/
def State.reg (s : State) (i : Nibble) : Word := s.regs[i.toNat]'i.isLt

/-- `x[i] <- v`. -/
def State.setReg (i : Nibble) (v : Word) (s : State) : State := { s with regs := s.regs.set i.toNat v i.isLt }

/-! ### CIM bank and quantization shift -/

/-- `CIM[r]` (10_state.md R25); a whole row moves (20_memory.md R44). -/
def State.row (s : State) (r : Nibble) : Word := s.cim[r.toNat]'r.isLt

/-- `CIM[r] <- v`. -/
def State.setRow (r : Nibble) (v : Word) (s : State) : State := { s with cim := s.cim.set r.toNat v r.isLt }

/-- `Q <- v` (10_state.md R23). -/
def State.setQ (v : Nibble) (s : State) : State := { s with q := v }

/-! ### Program counter -/

/-- `pc <- t` (00_scope.md R8). -/
def State.jump (t : Int) (s : State) : State := { s with pc := t }

/-- `pc <- pc + 1` (10_state.md R16). -/
def State.advance (s : State) : State := s.jump (s.pc + 1)

/-- The word at `pc`, or none when `pc` is out of the program (20_memory.md R41; 45_control.md R178). -/
def State.fetch (s : State) : Option Word := if s.pc < 0 then none else s.prog[s.pc.toNat]?

/-! ### Run state: halting and raising a fault -/

/-- `halt(reason)`: only the run state changes (60_exceptions.md R223). -/
def State.halt (r : HaltReason) (s : State) : State := { s with run := .halted r }

/-- `raise kind`: taking a fault. The run state becomes `Faulted(kind)`; no register, flag, memory slot, CIM row or `Q`
changes and `pc` keeps the address of the faulting instruction (60_exceptions.md R222). There is no trap entry that saves
anything (R225) and no return from one (R229): reset is the only way out
(70_reset_and_hazards.md R237; `State.restart` of Sys2Proof/Machine/Program.lean). -/
def State.raise (k : FaultKind) (s : State) : State := { s with run := .faulted k }

/-- A step of a core that is not running changes nothing (45_control.md R177; log 21). -/
def State.absorb (s : State) : State := s

/-- A step whose fetch is out of the program (45_control.md R178). -/
def State.endProgram (s : State) : State := s.halt .programEnd

/-- A step on a word the decoder does not recognize: a skip (45_control.md R187; log 17). -/
def State.skipWord (s : State) : State := s.advance

end Sys2Proof.Machine
end

