-- ==== Sys2Proof/Machine/Operands.lean ====
section
/-!
DEFINITION. The operand forms: register operands, immediates, shift amounts, data-memory addresses, CIM row indices.
-/

namespace Sys2Proof.Machine

/-- A register operand as a signed integer, `sint_16(x[i])` (00_scope.md R8). -/
def State.regInt (s : State) (i : Nibble) : Int := sint16 (s.reg i)

/-- The integer an 8-bit immediate stands for under a policy (42_alu.md R138). -/
def immInt (p : ImmExt) (imm8 : Byte) : Int :=
  match p with
  | .sext => sext8 imm8
  | .zext => zext8 imm8

/-- The amount of LSH: a negative register value is masked to its low 4 bits, any other is taken whole
(43_shift.md R160; log 12). -/
def lshAmount (v : Word) : Nat :=
  if sint16 v < 0 then v.toNat % 16 else (sint16 v).toNat

/-- The integer a sign-and-magnitude immediate stands for (30_encoding.md R49); `s = 1, mag = 0` is 0 (log 32). -/
def signMagInt (s : Bool) (mag : Nibble) : Int := if s then -(mag.toNat : Int) else (mag.toNat : Int)

/-- The left shift of a register value: computed at full precision, then narrowed (43_shift.md R160, R161). -/
def shiftLeft (v : Word) (n : Nat) : Word := narrow16 (sint16 v * 2 ^ n)

/-- The effective address `uint(x[i]) & 0x1FF` (20_memory.md R30). -/
def State.ea (s : State) (i : Nibble) : SlotAddr := (s.reg i).extractLsb' 0 9

/-- A row index that is not masked (STCR, LDCR): a row number, or none outside 0 to 15 (20_memory.md R43). -/
def rowOfInt (n : Int) : Option Nibble := if 0 ≤ n ∧ n ≤ 15 then some (BitVec.ofInt 4 n) else none

/-- The masked row index of STCM, `uint(x[i]) & 0xF` (20_memory.md R43). -/
def State.maskedRow (s : State) (i : Nibble) : Nibble := (s.reg i).extractLsb' 0 4

/-- The row of lane `lane` of CMPT: `(ra & 0x3) + 4·lane`, from the register index (46_cim.md R203; log 23). -/
def cmptRow (ra : Nibble) (lane : Fin 4) : Nibble := (ra &&& 0x3) + BitVec.ofNat 4 (4 * lane.val)

end Sys2Proof.Machine
end

