-- ==== Sys2Proof/Machine/Flags.lean ====
section
/-!
DEFINITION. The flag computations (42_alu.md R135 to R137, 46_cim.md R200), the condition truth table (30_encoding.md
R57), and the shared ends of the arithmetic and logic instructions.
-/

namespace Sys2Proof.Machine

/-- `Z <- (uint(r) = 0)`, `N <- r[15]`; `F`, `C` and `L` keep their values (42_alu.md R135). -/
def State.putZN (r : Word) (s : State) : State :=
  { s with flags := { s.flags with z := r == 0, n := r.msb } }

/-- `F <- b`; the other flags keep their values. -/
def State.putF (b : Bool) (s : State) : State := { s with flags := { s.flags with f := b } }

/-- `neg(v) = (v < 0)` (42_alu.md R136). -/
def neg (v : Int) : Bool := decide (v < 0)

/-- The overflow of the add class: the operands share a sign and the result's sign differs from it (42_alu.md R136). -/
def overflowAdd (a b : Int) (r : Word) : Bool := neg a == neg b && neg (sint16 r) != neg a

/-- The overflow of the subtract class: minuend and subtrahend differ in sign and the result's sign differs from the
minuend's (42_alu.md R137). -/
def overflowSub (a b : Int) (r : Word) : Bool := neg a != neg b && neg (sint16 r) != neg a

/-- `cond_true(c)`: the source's truth table as written (30_encoding.md R57; 45_control.md R179). -/
def condTrue (c : Cond) (f : Flags) : Bool :=
  match c with
  | .eq => f.z
  | .ne => !f.z
  | .cs => f.c
  | .cc => !f.c
  | .hi => f.l
  | .ls => !f.l
  | .gt => f.n
  | .le => !f.n
  | .fs => f.f
  | .fc => !f.f
  | .lo => !f.l && !f.z
  | .hs => f.l || f.z
  | .lt => !f.n && !f.z
  | .ge => f.n || f.z
  | .uc => true
  | .nv => false

/-- The add class: `x[ra] <- narrow16(a + b)`, with `Z`, `N` and `F` (42_alu.md R135, R136). -/
def State.finishAdd (ra : Nibble) (a b : Int) (s : State) : State :=
  let r := narrow16 (a + b)
  (((s.setReg ra r).putZN r).putF (overflowAdd a b r)).advance

/-- The flags of `a - b` and nothing else: CMP and CMPI (42_alu.md R135, R137, R144). -/
def State.finishCmp (a b : Int) (s : State) : State :=
  let r := narrow16 (a - b)
  ((s.putZN r).putF (overflowSub a b r)).advance

/-- The subtract class: `x[ra] <- narrow16(a - b)`, with `Z`, `N` and `F` (42_alu.md R135, R137). The minuend is the
destination register (log 10). -/
def State.finishSub (ra : Nibble) (a b : Int) (s : State) : State :=
  (s.setReg ra (narrow16 (a - b))).finishCmp a b

/-- The logic and move class: `x[ra] <- r`, with `Z` and `N`; `F` unchanged (42_alu.md R135, R139). -/
def State.finishLogic (ra : Nibble) (r : Word) (s : State) : State :=
  ((s.setReg ra r).putZN r).advance

/-- The shifts, LUI and LOAD: `x[ra] <- r`, no flag (10_state.md R19; log 11). -/
def State.finishMove (ra : Nibble) (r : Word) (s : State) : State := (s.setReg ra r).advance

end Sys2Proof.Machine
end

