-- ==== Sys2Proof/Machine/Alu.lean ====
section
/-!
DEFINITION. The arithmetic and logic instructions (42_alu.md R135 to R153).
-/

namespace Sys2Proof.Machine

/-- ADD (42_alu.md R140). -/
def execAdd (ra rb : Nibble) (s : State) : Result := .next (s.finishAdd ra (s.regInt ra) (s.regInt rb))

/-- ADDI (42_alu.md R141). -/
def execAddi (ra : Nibble) (imm8 : Byte) (s : State) : Result :=
  .next (s.finishAdd ra (s.regInt ra) (immInt s.cfg.imm8.addi imm8))

/-- SUB (42_alu.md R142). -/
def execSub (ra rb : Nibble) (s : State) : Result := .next (s.finishSub ra (s.regInt ra) (s.regInt rb))

/-- SUBI (42_alu.md R143). -/
def execSubi (ra : Nibble) (imm8 : Byte) (s : State) : Result :=
  .next (s.finishSub ra (s.regInt ra) (immInt s.cfg.imm8.subi imm8))

/-- CMP (42_alu.md R144). -/
def execCmp (ra rb : Nibble) (s : State) : Result := .next (s.finishCmp (s.regInt ra) (s.regInt rb))

/-- CMPI (42_alu.md R145). -/
def execCmpi (ra : Nibble) (imm8 : Byte) (s : State) : Result :=
  .next (s.finishCmp (s.regInt ra) (immInt s.cfg.imm8.cmpi imm8))

/-- AND (42_alu.md R146). -/
def execAnd (ra rb : Nibble) (s : State) : Result := .next (s.finishLogic ra (s.reg ra &&& s.reg rb))

/-- ANDI (42_alu.md R147); acting on `narrow16(b)` is acting on the integer `b` and narrowing (R139). -/
def execAndi (ra : Nibble) (imm8 : Byte) (s : State) : Result :=
  .next (s.finishLogic ra (s.reg ra &&& narrow16 (immInt s.cfg.imm8.andi imm8)))

/-- OR (42_alu.md R148). -/
def execOr (ra rb : Nibble) (s : State) : Result := .next (s.finishLogic ra (s.reg ra ||| s.reg rb))

/-- ORI (42_alu.md R149, R139). -/
def execOri (ra : Nibble) (imm8 : Byte) (s : State) : Result :=
  .next (s.finishLogic ra (s.reg ra ||| narrow16 (immInt s.cfg.imm8.ori imm8)))

/-- XOR (42_alu.md R150). -/
def execXor (ra rb : Nibble) (s : State) : Result := .next (s.finishLogic ra (s.reg ra ^^^ s.reg rb))

/-- XORI (42_alu.md R151, R139). -/
def execXori (ra : Nibble) (imm8 : Byte) (s : State) : Result :=
  .next (s.finishLogic ra (s.reg ra ^^^ narrow16 (immInt s.cfg.imm8.xori imm8)))

/-- MOV (42_alu.md R152). -/
def execMov (ra rb : Nibble) (s : State) : Result := .next (s.finishLogic ra (s.reg rb))

/-- MOVI (42_alu.md R153). -/
def execMovi (ra : Nibble) (imm8 : Byte) (s : State) : Result :=
  .next (s.finishLogic ra (narrow16 (immInt s.cfg.imm8.movi imm8)))

end Sys2Proof.Machine
end

