-- ==== Sys2Proof/Machine/Cim.lean ====
section
/-!
DEFINITION. The CIM accelerator extension (46_cim.md R193 to R212): the quantized dot product as a pure function, and the
five instructions.
-/

namespace Sys2Proof.Machine

/-! ### The quantized dot product -/

/-- The accumulator of one lane: the exact sum of four signed products (46_cim.md R205). -/
def dot (row act : Word) : Int :=
  snib row 0 * snib act 0 + snib row 1 * snib act 1 + snib row 2 * snib act 2 + snib row 3 * snib act 3

/-- The quantization shift, toward zero in both signs (46_cim.md R206). -/
def quant (acc : Int) (q : Nat) : Int :=
  if 0 ≤ acc then ((acc.toNat >>> q : Nat) : Int) else -(((-acc).toNat >>> q : Nat) : Int)

/-- The nibble of one lane: the low 4 bits, with silent wraparound (46_cim.md R207). -/
def lane (row act : Word) (q : Nibble) : Nibble := BitVec.ofInt 4 (quant (dot row act) q.toNat)

/-- `cmpt_word(row0, row1, row2, row3, act, q)`: lane 0 in bits 3:0 through lane 3 in bits 15:12 (46_cim.md R208, R210). -/
def cmptWord (row0 row1 row2 row3 act : Word) (q : Nibble) : Word :=
  nibbles (lane row3 act q) (lane row2 act q) (lane row1 act q) (lane row0 act q)

/-! ### The instructions -/

/-- STCR (46_cim.md R198; log 14, 24). -/
def execStcr (ra rb : Nibble) (s : State) : Result :=
  match rowOfInt (s.regInt rb) with
  | none => .next (s.raise (.cimIndex (s.regInt rb)))
  | some r => .next (s.setRow r (s.reg ra)).advance

/-- STCM (46_cim.md R199). -/
def execStcm (ra rb : Nibble) (s : State) : Result :=
  .next (s.setRow (s.maskedRow ra) (s.memRead (s.ea rb))).advance

/-- LDCR (46_cim.md R200; log 14): the destination is the second operand. -/
def execLdcr (ra rb : Nibble) (s : State) : Result :=
  match rowOfInt (s.regInt ra) with
  | none => .next (s.raise (.cimIndex (s.regInt ra)))
  | some r => .next (((s.setReg rb (s.row r)).putZN (s.row r)).advance)

/-- SETQ (46_cim.md R202). -/
def execSetq (imm4 : Nibble) (s : State) : Result := .next (s.setQ imm4).advance

/-- The word CMPT stores (46_cim.md R204). -/
def State.cmptResult (s : State) (ra : Nibble) : Word :=
  cmptWord (s.row (cmptRow ra 0)) (s.row (cmptRow ra 1)) (s.row (cmptRow ra 2)) (s.row (cmptRow ra 3)) (s.reg ra) s.q

/-- CMPT (46_cim.md R204). -/
def execCmpt (ra rb : Nibble) (s : State) : Result :=
  .next (s.memWrite (s.ea rb) (s.cmptResult ra)).advance

end Sys2Proof.Machine
end

