-- ==== Sys2Proof/Machine/Control.lean ====
section
/-!
DEFINITION. Branch, jump and system instructions (45_control.md R179 to R189).
-/

namespace Sys2Proof.Machine

/-- BCOND (45_control.md R180): the target is relative to the address after the branch (R188). -/
def execBcond (c : Cond) (disp : Byte) (s : State) : Result :=
  .next (if condTrue c s.flags then s.jump (s.pc + 1 + sext8 disp) else s.advance)

/-- JCOND (45_control.md R181). -/
def execJcond (c : Cond) (rb : Nibble) (s : State) : Result :=
  .next (if condTrue c s.flags then s.jump (s.regInt rb) else s.advance)

/-- JAL (45_control.md R182): refused when link and target are the same register (log 15). -/
def execJal (ra rb : Nibble) (s : State) : Result :=
  if ra = rb then .refused (.jalSameRegister ra)
  else .next ((s.setReg ra (narrow16 (s.pc + 1))).jump (s.regInt rb))

/-- WAIT (45_control.md R183; log 7). -/
def execWait (s : State) : Result :=
  .next (match s.cfg.wait with
    | .halt => s.halt .wait
    | .nop => s.advance)

/-- DI (45_control.md R184). -/
def execDi (s : State) : Result := .next s.advance

/-- EI (45_control.md R185). -/
def execEi (s : State) : Result := .next s.advance

/-- EXCP (45_control.md R186): "This spec gives the execution of EXCP no meaning ... a model refuses to step it"
(60_exceptions.md R227; log 16). -/
def execExcp (vec : Nibble) (_s : State) : Result := .refused (.excpHasNoMeaning vec)

end Sys2Proof.Machine
end

