-- ==== Sys2Proof/Machine/LoadStore.lean ====
section
/-!
DEFINITION. Load and store (44_loadstore.md R170 to R173).
-/

namespace Sys2Proof.Machine

/-- LOAD (44_loadstore.md R170). -/
def execLoad (ra rb : Nibble) (s : State) : Result := .next (s.finishMove ra (s.memRead (s.ea rb)))

/-- STOR (44_loadstore.md R171). -/
def execStor (ra rb : Nibble) (s : State) : Result := .next (s.memWrite (s.ea rb) (s.reg ra)).advance

end Sys2Proof.Machine
end

