-- ==== Sys2Proof/Machine/Shift.lean ====
section
/-!
DEFINITION. The shifts and load upper immediate (43_shift.md R160 to R163).
-/

namespace Sys2Proof.Machine

/-- LSH (43_shift.md R160). -/
def execLsh (ra rb : Nibble) (s : State) : Result :=
  .next (s.finishMove ra (shiftLeft (s.reg ra) (lshAmount (s.reg rb))))

/-- LSHI (43_shift.md R161): a negative amount raises `NegativeShift` (log 13). -/
def execLshi (ra : Nibble) (sgn : Bool) (mag : Nibble) (s : State) : Result :=
  let n := signMagInt sgn mag
  if n < 0 then .next (s.raise (.negativeShift n)) else .next (s.finishMove ra (shiftLeft (s.reg ra) n.toNat))

/-- LUI (43_shift.md R162): the field in bits 15:8, zero in bits 7:0, whatever `IMM8_POLICY` says. -/
def execLui (ra : Nibble) (imm8 : Byte) (s : State) : Result := .next (s.finishMove ra (imm8 ++ 0#8))

end Sys2Proof.Machine
end

