-- ==== Sys2Proof/Machine/Dispatch.lean ====
section
/-!
DEFINITION. The meaning of every instruction: one arm per constructor of `Instr`, each a direct call of its meaning.
-/

namespace Sys2Proof.Machine

def exec (i : Instr) (s : State) : Host.Outcome State Fault Refusal :=
  match i with
  -- arithmetic and logic (42_alu.md)
  | .add ra rb => Sys2Proof.Machine.execAdd ra rb s
  | .sub ra rb => Sys2Proof.Machine.execSub ra rb s
  | .cmp ra rb => Sys2Proof.Machine.execCmp ra rb s
  | .and ra rb => Sys2Proof.Machine.execAnd ra rb s
  | .or ra rb => Sys2Proof.Machine.execOr ra rb s
  | .xor ra rb => Sys2Proof.Machine.execXor ra rb s
  | .mov ra rb => Sys2Proof.Machine.execMov ra rb s
  | .addi ra imm8 => Sys2Proof.Machine.execAddi ra imm8 s
  | .subi ra imm8 => Sys2Proof.Machine.execSubi ra imm8 s
  | .cmpi ra imm8 => Sys2Proof.Machine.execCmpi ra imm8 s
  | .andi ra imm8 => Sys2Proof.Machine.execAndi ra imm8 s
  | .ori ra imm8 => Sys2Proof.Machine.execOri ra imm8 s
  | .xori ra imm8 => Sys2Proof.Machine.execXori ra imm8 s
  | .movi ra imm8 => Sys2Proof.Machine.execMovi ra imm8 s
  -- shifts and load upper (43_shift.md)
  | .lsh ra rb => Sys2Proof.Machine.execLsh ra rb s
  | .lshi ra sgn mag => Sys2Proof.Machine.execLshi ra sgn mag s
  | .lui ra imm8 => Sys2Proof.Machine.execLui ra imm8 s
  -- load and store (44_loadstore.md)
  | .load ra rb => Sys2Proof.Machine.execLoad ra rb s
  | .stor ra rb => Sys2Proof.Machine.execStor ra rb s
  -- control transfer and system (45_control.md)
  | .bcond c disp => Sys2Proof.Machine.execBcond c disp s
  | .jcond c rb => Sys2Proof.Machine.execJcond c rb s
  | .jal ra rb => Sys2Proof.Machine.execJal ra rb s
  | .wait => Sys2Proof.Machine.execWait s
  | .di => Sys2Proof.Machine.execDi s
  | .ei => Sys2Proof.Machine.execEi s
  | .excp vec => Sys2Proof.Machine.execExcp vec s
  -- CIM (46_cim.md)
  | .stcr ra rb => Sys2Proof.Machine.execStcr ra rb s
  | .stcm ra rb => Sys2Proof.Machine.execStcm ra rb s
  | .ldcr ra rb => Sys2Proof.Machine.execLdcr ra rb s
  | .setq imm4 => Sys2Proof.Machine.execSetq imm4 s
  | .cmpt ra rb => Sys2Proof.Machine.execCmpt ra rb s

end Sys2Proof.Machine
end

