-- ==== Sys2Proof/Machine/Program.lean ====
section
/-!
DEFINITION. Giving the core a program, starting a run, and the reset event. `PROG` is configuration: it is there before the
first step and no instruction writes it (00_scope.md R6; 20_memory.md R40; 70_reset_and_hazards.md R239; log 3).
-/

namespace Sys2Proof.Machine

/-- The state with another program. -/
def State.withProgram (prog : List Word) (s : State) : State := { s with prog := prog }

/-- A run's start under given parameters: every piece of state at its reset value, with a program
(70_reset_and_hazards.md R236, R239). -/
def startUnder (cfg : Params) (prog : List Word) : State := { State.reset with prog := prog, cfg := cfg }

/-- A run's start under the default parameters. -/
def startWith (prog : List Word) : State := startUnder paramsDefault prog

/-- The reset event (70_reset_and_hazards.md R237): every piece of state goes to its reset value; the program and the
registry, with the other parameters, "are not changed by reset". It is no instruction and no step causes it: the
environment resets the core between two steps. -/
def State.restart (s : State) : State := startUnder s.cfg s.prog

/-- A program with the word at one index set; a shorter program is first filled with zero words up to that index. -/
def setWord : Nat → Word → List Word → List Word
  | 0, w, [] => [w]
  | 0, w, _ :: xs => w :: xs
  | k + 1, w, [] => 0 :: setWord k w []
  | k + 1, w, x :: xs => x :: setWord k w xs

/-- The index at which the next instruction is put: `pc` where a program can have that index, 0 otherwise. -/
def State.fetchIndex (s : State) : Nat := if 0 ≤ s.pc ∧ s.pc < (maxProgLen : Int) then s.pc.toNat else 0

/-- The state in which the next step fetches the word `w`: the core runs, `pc` is an index of the program, and the program
holds `w` there (log 3). -/
def State.placeWord (w : Word) (s : State) : State :=
  { s with run := .running, pc := (s.fetchIndex : Int), prog := setWord s.fetchIndex w s.prog }

end Sys2Proof.Machine
end

