-- ==== Sys2Proof/Machine/Step.lean ====
section
/-!
DEFINITION. One step of the core (45_control.md R177), and placing the word the next step fetches.
-/

namespace Sys2Proof.Machine

/-- One step (45_control.md R177): a core that is not running does not change; a `pc` out of the program halts; a word the
decoder does not recognize is skipped; a descriptor without an execution rule is refused; any other word is executed. -/
def step (s : State) : Host.Outcome State Fault Refusal :=
  match s.run with
  | .running =>
    match s.fetch with
    | none => .next s.endProgram
    | some w =>
      match decodeWord s.cfg.registry s.cfg.strictZeroBits w with
      | .instr i => exec i s
      | .unrecognized _ => .next s.skipWord
      | .noRule m => .refused (.noExecutionRule m)
  | _ => .next s.absorb

/-- The state in which the very next step fetches the instruction whose low `nbits` bits are those of `w`: the program is
given from outside the machine, and this stands for giving it (log 3). -/
def State.withFetchWord (s : State) (nbits w : Nat) : State := s.placeWord (BitVec.ofNat 16 (w % 2 ^ nbits))

end Sys2Proof.Machine
end

