-- ==== Sys2Proof/Machine/Assembler.lean ====
section
/-!
DEFINITION. The assembler `ASM`: two passes over text (30_encoding.md R63 to R73). Lexical details the source leaves open
are in log 28.
-/

namespace Sys2Proof.Machine

/-! ### Text -/

/-- A text cut at every character that satisfies `p`; that character belongs to no piece. -/
def cutAt (p : Char → Bool) : Text → List Text
  | [] => [[]]
  | c :: cs =>
    match p c, cutAt p cs with
    | true, ts => [] :: ts
    | false, t :: ts => (c :: t) :: ts
    | false, [] => [[c]]

/-- The source lines of a text. -/
def sourceLines (t : Text) : List Text := cutAt (· == '\n') t

/-- A line without its comment: everything from the first `;` on is removed (30_encoding.md R64). -/
def stripComment (t : Text) : Text := t.takeWhile (· != ';')

/-- A text without leading and trailing white space. -/
def trim (t : Text) : Text := ((t.dropWhile Char.isWhitespace).reverse.dropWhile Char.isWhitespace).reverse

/-- The tokens of an instruction: any run of commas and white space separates two, empty ones are dropped
(30_encoding.md R65). -/
def tokens (t : Text) : List Text := (cutAt (fun c => c == ',' || c.isWhitespace) t).filter (fun u => !u.isEmpty)

/-- A label prefix `label:` and the remainder after the colon (30_encoding.md R64). DESIGN CHOICE (log 28): a label is a
non-empty run of characters other than white space, commas and colons, with the colon directly after it. -/
def labelPrefix (t : Text) : Option (Text × Text) :=
  let name := t.takeWhile (fun c => !(c == ':' || c == ',' || c.isWhitespace))
  match name, t.dropWhile (fun c => !(c == ':' || c == ',' || c.isWhitespace)) with
  | [], _ => none
  | _, ':' :: rest => some (name, rest)
  | _, _ => none

/-! ### Numbers and operands -/

/-- The value of a digit in a base up to 16, in either case. -/
def digitVal (base : Nat) (c : Char) : Option Nat :=
  let v : Option Nat :=
    if 48 ≤ c.toNat ∧ c.toNat ≤ 57 then some (c.toNat - 48)
    else if 65 ≤ c.toNat ∧ c.toNat ≤ 70 then some (c.toNat - 55)
    else if 97 ≤ c.toNat ∧ c.toNat ≤ 102 then some (c.toNat - 87)
    else none
  v.filter (· < base)

/-- The digits of a text read on from a value. -/
def digitsFrom (base acc : Nat) : Text → Option Nat
  | [] => some acc
  | c :: cs =>
    match digitVal base c with
    | some v => digitsFrom base (acc * base + v) cs
    | none => none

/-- A non-empty run of digits. -/
def parseDigits (base : Nat) (t : Text) : Option Nat := if t.isEmpty then none else digitsFrom base 0 t

/-- An immediate token: decimal, with an optional minus sign, or `0x` and hexadecimal digits; nothing else
(30_encoding.md R67). -/
def parseImmediate : Text → Option Int
  | '0' :: 'x' :: ds => (parseDigits 16 ds).map Int.ofNat
  | '-' :: ds => (parseDigits 10 ds).map (fun n => -(n : Int))
  | ds => (parseDigits 10 ds).map Int.ofNat

/-- A register token: `R`, in either case, and a non-negative decimal integer (30_encoding.md R66). -/
def parseRegister : Text → Option Nat
  | 'R' :: ds => parseDigits 10 ds
  | 'r' :: ds => parseDigits 10 ds
  | _ => none

/-- The symbol table: labels in upper case with their addresses (00_scope.md, glossary). -/
abbrev Symbols := List (Text × Nat)

/-- The address of a label, without regard to case. -/
def Symbols.find (tab : Symbols) (label : Text) : Option Nat :=
  (List.find? (fun e => e.1 == upper label) tab).map Prod.snd

/-- A label recorded; an earlier definition is overwritten (30_encoding.md R64). -/
def Symbols.record (tab : Symbols) (label : Text) (address : Nat) : Symbols :=
  (upper label, address) :: List.filter (fun e => e.1 != upper label) tab

/-- An immediate token or `InvalidImmediate` (30_encoding.md R67). -/
def immediateToken (t : Text) : Except EncError Int :=
  match parseImmediate t with
  | some v => .ok v
  | none => .error .invalidImmediate

/-- The displacement of a label at an instruction address: `address(L) - (A + 1)` masked to 8 bits (30_encoding.md R70). -/
def labelDisp (target address : Nat) : Byte := BitVec.ofInt 8 ((target : Int) - ((address : Int) + 1))

/-- How each kind of operand is read from a token at an instruction address (30_encoding.md R66 to R71). A branch target
that is no known label falls through to an immediate (R71). -/
def tokenReader (tab : Symbols) (address : Nat) : OperandReader Text where
  reg t :=
    match parseRegister t with
    | some n => resolveRegNum n
    | none => .error .invalidRegister
  imm8 t := do let v ← immediateToken t; resolveImm8Val v
  signMag t := do let v ← immediateToken t; resolveSignMagVal v
  imm4 t := do let v ← immediateToken t; resolveImm4Val v
  cond t :=
    match condOfName t with
    | some c => .ok c.code
    | none => do let v ← immediateToken t; .ok (BitVec.ofInt 4 v)
  disp t :=
    match tab.find t with
    | some a => .ok (labelDisp a address)
    | none => do let v ← immediateToken t; .ok (BitVec.ofInt 8 v)

/-! ### The two passes -/

/-- An instruction queued by pass 1 (30_encoding.md R64). -/
structure Queued where
  address : Nat
  line : Nat
  text : Text
deriving DecidableEq, Repr

/-- The warning of a label that is defined again (30_encoding.md R64; 60_exceptions.md R220). -/
structure LabelWarning where
  line : Nat
  label : Text
deriving DecidableEq, Repr

/-- The diagnostic of a line that fails: its line number, its mnemonic, the error kind (30_encoding.md R72;
60_exceptions.md R217). -/
structure Diagnostic where
  line : Nat
  mnemonic : Text
  kind : EncError
deriving DecidableEq, Repr

/-- What pass 1 has built so far. -/
structure Pass1 where
  address : Nat
  symbols : Symbols
  queue : List Queued
  warnings : List LabelWarning
deriving DecidableEq, Repr

/-- Queue a remainder as an instruction, if it is not empty (30_encoding.md R64). -/
def enqueue (line : Nat) (text : Text) (p : Pass1) : Pass1 :=
  if text.isEmpty then p
  else { p with address := p.address + 1, queue := p.queue ++ [⟨p.address, line, text⟩] }

/-- Record a label at the current address, with a warning if it is known (30_encoding.md R64). -/
def recordLabel (line : Nat) (label : Text) (p : Pass1) : Pass1 :=
  { p with
    symbols := p.symbols.record label p.address
    warnings := if (p.symbols.find label).isSome then p.warnings ++ [⟨line, upper label⟩] else p.warnings }

/-- Pass 1 on one line (30_encoding.md R64). -/
def pass1Line (line : Nat) (text : Text) (p : Pass1) : Pass1 :=
  match labelPrefix (trim (stripComment text)) with
  | some (label, rest) => enqueue line (trim rest) (recordLabel line label p)
  | none => enqueue line (trim (stripComment text)) p

/-- Pass 1 on the lines from a line number on. -/
def pass1 : Nat → List Text → Pass1 → Pass1
  | _, [], p => p
  | n, t :: ts, p => pass1 (n + 1) ts (pass1Line n t p)

/-- Pass 2 on one queued instruction: exactly one word or one diagnostic (30_encoding.md R65, R72). -/
def assembleLine (reg : Registry) (tab : Symbols) (x : Queued) : Except Diagnostic Word :=
  let m := upper ((tokens x.text).headD [])
  match (do
    let d ← lookup reg m
    let f ← resolveWith (tokenReader tab x.address) d.format.tag ((tokens x.text).drop 1)
    pack d f) with
  | .ok w => .ok w
  | .error k => .error ⟨x.line, m, k⟩

/-- The outcome of an assembly (30_encoding.md R72). -/
structure Assembly where
  words : List Word
  diagnostics : List Diagnostic
  warnings : List LabelWarning
  symbols : Symbols
deriving DecidableEq, Repr

/-- The words of the lines that succeed. -/
def okWords : List (Except Diagnostic Word) → List Word
  | [] => []
  | .ok w :: rs => w :: okWords rs
  | .error _ :: rs => okWords rs

/-- The diagnostics of the lines that fail. -/
def errorDiagnostics : List (Except Diagnostic Word) → List Diagnostic
  | [] => []
  | .ok _ :: rs => errorDiagnostics rs
  | .error e :: rs => e :: errorDiagnostics rs

/-- Pass 1 of a source text; lines are numbered from 1 (log 28). -/
def labelPass (src : Text) : Pass1 := pass1 1 (sourceLines src) ⟨0, [], [], []⟩

/-- `ASM`: a line that fails does not stop the assembly (30_encoding.md R72; 60_exceptions.md R218). -/
def assemble (reg : Registry) (src : Text) : Assembly :=
  let p := labelPass src
  let rs := p.queue.map (assembleLine reg p.symbols)
  { words := okWords rs, diagnostics := errorDiagnostics rs, warnings := p.warnings, symbols := p.symbols }

/-- The program of an assembly: only one without diagnostics is a program (60_exceptions.md R218; log 34), and only one of
at most 32768 words (00_scope.md R6). -/
def Assembly.program (a : Assembly) : Option (List Word) :=
  if a.diagnostics.isEmpty && programWf a.words then some a.words else none

end Sys2Proof.Machine
end

