-- ==== Sys2Proof/Machine/CimPort.lean ====
section
/-!
DEFINITION. The CIM datapath as a block with the ports of 46_cim.md R193 and its own state, the bank and `Q`. The core's
instructions are in Sys2Proof/Machine/Cim.lean; the two agree by an obligation.
-/

namespace Sys2Proof.Machine

/-- The port `cmd` (46_cim.md R193). -/
inductive CimCmd where
  | stcr | stcm | ldcr | setq | cmpt | none
deriving DecidableEq, Repr

/-- The input ports (46_cim.md R193). -/
structure CimIn where
  cmd : CimCmd
  raIdx : Nibble
  raVal : Word
  rbVal : Word
  memRdata : Word
  imm4 : Nibble
deriving DecidableEq, Repr

/-- The output ports (46_cim.md R193). DESIGN CHOICE (log 33): `regWdata` is none but for an LDCR that does not fault, and
`memWdata` is none but for CMPT; the spec gives those ports no value otherwise. `fault` carries the index. -/
structure CimOut where
  regWdata : Option Word
  memWdata : Option Word
  fault : Option Int
deriving DecidableEq, Repr

/-- The state of the datapath: the bank and `Q` (46_cim.md R193). -/
structure CimState where
  bank : Vector Word 16
  q : Nibble
deriving DecidableEq, Repr

/-- The output of an operation that drives no output port. -/
def cimQuiet : CimOut := { regWdata := none, memWdata := none, fault := none }

/-- Row `r` of the bank. -/
def bankRow (bank : Vector Word 16) (r : Nibble) : Word := bank[r.toNat]'r.isLt

/-- One operation of the datapath, started and completed within one step of the core (46_cim.md R193). -/
def cimDatapath (i : CimIn) (st : CimState) : CimState × CimOut :=
  match i.cmd with
  | .none => (st, cimQuiet)
  | .stcr =>
    match rowOfInt (sint16 i.rbVal) with
    | some r => ({ st with bank := st.bank.set r.toNat i.raVal r.isLt }, cimQuiet)
    | none => (st, { cimQuiet with fault := some (sint16 i.rbVal) })
  | .stcm => ({ st with bank := st.bank.set (i.raVal.extractLsb' 0 4).toNat i.memRdata (i.raVal.extractLsb' 0 4).isLt }, cimQuiet)
  | .ldcr =>
    match rowOfInt (sint16 i.raVal) with
    | some r => (st, { cimQuiet with regWdata := some (bankRow st.bank r) })
    | none => (st, { cimQuiet with fault := some (sint16 i.raVal) })
  | .setq => ({ st with q := i.imm4 }, cimQuiet)
  | .cmpt =>
    (st, { cimQuiet with memWdata := some (cmptWord (bankRow st.bank (cmptRow i.raIdx 0)) (bankRow st.bank (cmptRow i.raIdx 1))
      (bankRow st.bank (cmptRow i.raIdx 2)) (bankRow st.bank (cmptRow i.raIdx 3)) i.raVal st.q) })

/-- What the core drives on the input ports for an instruction (46_cim.md R193, R195). `ra` and `rb` name the registers on
the value ports, `imm4` is the immediate port. -/
def State.cimInputs (cmd : CimCmd) (ra rb imm4 : Nibble) (s : State) : CimIn where
  cmd := cmd
  raIdx := ra
  raVal := s.reg ra
  rbVal := s.reg rb
  memRdata := s.memRead (s.ea rb)
  imm4 := imm4

/-- What the core does with the datapath's answer (46_cim.md R193): keep the datapath's new state; on a fault raise
`CimIndex` and do nothing else; write `reg_wdata` to `x[rb]` with `Z` and `N` (R200); write `mem_wdata` to the slot that
`x[rb]` names (R209); advance. -/
def State.cimApply (rb : Nibble) (r : CimState × CimOut) (s : State) : State :=
  match r.2.fault with
  | some n => s.raise (.cimIndex n)
  | none =>
    let s1 := { s with cim := r.1.bank, q := r.1.q }
    let s2 := match r.2.regWdata with
      | some v => (s1.setReg rb v).putZN v
      | none => s1
    let s3 := match r.2.memWdata with
      | some v => s2.memWrite (s.ea rb) v
      | none => s2
    s3.advance

/-- One CIM instruction through the ports of the datapath. -/
def State.cimStep (cmd : CimCmd) (ra rb imm4 : Nibble) (s : State) : State :=
  s.cimApply rb (cimDatapath (s.cimInputs cmd ra rb imm4) ⟨s.cim, s.q⟩)

end Sys2Proof.Machine
end

