-- ==== Sys2Proof/Machine/Render.lean ====
section
/-!
DEFINITION. Text output: the disassembly of a decoded word (41_decoder.md R119 to R124) and the machine-code file
(30_encoding.md R74). Details the source leaves open follow the spec's decisions D11, D12 and D13 (log 29).
-/

namespace Sys2Proof.Machine

/-- A hexadecimal digit, upper case. -/
def hexDigit (n : Nibble) : Char :=
  if n.toNat < 10 then Char.ofNat (48 + n.toNat) else Char.ofNat (55 + n.toNat)

/-- Two upper-case hexadecimal digits (41_decoder.md R121). -/
def hex2 (b : Byte) : Text := [hexDigit (hiNibble b), hexDigit (loNibble b)]

/-- Four upper-case hexadecimal digits, the most significant first (30_encoding.md R74; 20_memory.md R35). -/
def hex4 (w : Word) : Text := [hexDigit (opField w), hexDigit (raField w), hexDigit (extField w), hexDigit (rbField w)]

/-- A number in decimal without leading zeros. -/
def decText (n : Nat) : Text := Nat.toDigits 10 n

/-- A signed decimal number: a leading minus sign when negative, no sign otherwise (41_decoder.md R122, R123). -/
def signedText (v : Int) : Text := if v < 0 then '-' :: decText v.natAbs else decText v.natAbs

/-- A register, `R` and its index in decimal (41_decoder.md R120). -/
def regText (r : Nibble) : Text := 'R' :: decText r.toNat

/-- An 8-bit immediate, `0x` and two digits (41_decoder.md R121). -/
def imm8Text (b : Byte) : Text := '0' :: 'x' :: hex2 b

/-- A condition by its name (41_decoder.md R123). -/
def condText (c : Nibble) : Text := (Cond.ofCode c).name

/-- The operands of a field record, in the order of 30_encoding.md R68 (41_decoder.md R120 to R123). -/
def operandTexts : Fields → List Text
  | .rr ra rb => [regText ra, regText rb]
  | .ri ra imm8 => [regText ra, imm8Text imm8]
  | .ri4 ra s mag => [regText ra, signedText (if s then -(mag.toNat : Int) else (mag.toNat : Int))]
  | .i4 imm4 => [decText imm4.toNat]
  | .bcond cond disp => [condText cond, signedText (sext8 disp)]
  | .jcond cond rb => [condText cond, regText rb]
  | .rs ra rb => [regText ra, regText rb]
  | .ir ra imm8 => [regText ra, imm8Text imm8]
  | .fix => []
  | .fixv vec => [decText vec.toNat]

/-- Operands separated by a comma and one space (41_decoder.md R119). -/
def joinOperands : List Text → Text
  | [] => []
  | [t] => t
  | t :: ts => t ++ ", ".toList ++ joinOperands ts

/-- `DEC.render` (41_decoder.md R119, R124). -/
def render : DecodeResult → Text
  | .recognized d f =>
    match operandTexts f with
    | [] => upper d.mnemonic
    | ts => upper d.mnemonic ++ " ".toList ++ joinOperands ts
  | .unrecognized w => "??? (0x".toList ++ hex4 w ++ ")".toList

/-- The disassembly of a program, one instruction a line (30_encoding.md R75). -/
def disassemble (reg : Registry) (strict : Bool) (prog : List Word) : List Text :=
  prog.map (fun w => render (decode reg strict w))

/-- The machine-code file: one word a line, four upper-case hexadecimal digits, newline-terminated (30_encoding.md R74). -/
def machineCode : List Word → Text
  | [] => []
  | w :: ws => hex4 w ++ '\n' :: machineCode ws

/-- The value of an upper-case hexadecimal digit of the machine-code file. -/
def upperHexVal (c : Char) : Option Nibble :=
  if 48 ≤ c.toNat ∧ c.toNat ≤ 57 then some (BitVec.ofNat 4 (c.toNat - 48))
  else if 65 ≤ c.toNat ∧ c.toNat ≤ 70 then some (BitVec.ofNat 4 (c.toNat - 55))
  else none

/-- The words of a machine-code file: line `i` is the word at program index `i`; a text of another form has none
(30_encoding.md R74). -/
def readMachineCode : Text → Option (List Word)
  | [] => some []
  | a :: b :: c :: d :: e :: rest =>
    match upperHexVal a, upperHexVal b, upperHexVal c, upperHexVal d, e == '\n', readMachineCode rest with
    | some n3, some n2, some n1, some n0, true, some ws => some (nibbles n3 n2 n1 n0 :: ws)
    | _, _, _, _, _, _ => none
  | _ => none

end Sys2Proof.Machine
end

