-- ==== Sys2Proof/Machine/Run.lean ====
section
/-!
DEFINITION. Runs: the repetition of `step` until the run state is not `Running` (45_control.md R177), with the optional
ceiling `STEP_LIMIT` (70_reset_and_hazards.md R245, R246; log 31).
-/

namespace Sys2Proof.Machine

/-- How a run of at most some number of steps ends. -/
inductive RunEnd where
  /-- The core is not running any more; the state is the run's result (60_exceptions.md R223). -/
  | terminal (s : State)
  /-- The limit is reached and the core is still running: "reported as such" (70_reset_and_hazards.md R246). -/
  | limit (s : State)
  /-- The run reached a step the model refuses (60_exceptions.md R227). -/
  | refused (r : Refusal)
deriving DecidableEq, Repr

/-- A run of at most `k` steps (70_reset_and_hazards.md R246). -/
def runSteps : Nat → State → RunEnd
  | 0, s => if s.run = .running then .limit s else .terminal s
  | k + 1, s =>
    if s.run = .running then
      match step s with
      | .next t => runSteps k t
      | .refused r => .refused r
    else .terminal s

/-- The run of a state under its own `STEP_LIMIT`: with a limit, at most that many steps; with none, the unbounded
iteration, which gives an end only if there is one (70_reset_and_hazards.md R245, R246). -/
def RunGives (s : State) (e : RunEnd) : Prop :=
  match s.cfg.stepLimit with
  | some n => runSteps n s = e
  | none => ∃ k, runSteps k s = e ∧ ∀ t, e ≠ .limit t

end Sys2Proof.Machine
end

