-- ==== Sys2Proof/Safety.lean ====
section
/-!
DEFINITION. The terms the statements use: the invariant of the machine, what an instruction leaves alone, what a safe run
is.
-/

namespace Sys2Proof.Machine

/-- The invariant every step keeps: data memory in canonical form, `C` and `L` false (10_state.md R20), never `Z` and `N`
together (a zero result is not negative, 42_alu.md R135), a program of a legal length (00_scope.md R6). -/
def State.Inv (s : State) : Prop :=
  Memory.wf s.dmem = true ∧ s.flags.c = false ∧ s.flags.l = false ∧ (s.flags.z && s.flags.n) = false ∧
    programWf s.prog = true

/-- The core has ended "legitimately": it is halted (60_exceptions.md R223). -/
def State.Ended (s : State) : Prop := ∃ r, s.run = .halted r

/-- The core has not faulted (60_exceptions.md R222). -/
def State.Unfaulted (s : State) : Prop := ∀ k, s.run ≠ .faulted k

/-- A state that steps reach from a state. -/
inductive Reaches (s : State) : State → Prop where
  | refl : Reaches s s
  | step {t u : State} : Reaches s t → Machine.step t = .next u → Reaches s u

/-- Every general register but those in a list reads as before. -/
def RegsKeptBut (rs : List Nibble) (s t : State) : Prop := ∀ i, i ∉ rs → t.reg i = s.reg i

/-- Every slot of data memory reads as before. -/
def MemKept (s t : State) : Prop := ∀ a, t.memRead a = s.memRead a

/-- Every slot of data memory but one reads as before. -/
def MemKeptBut (e : SlotAddr) (s t : State) : Prop := ∀ a, a ≠ e → t.memRead a = s.memRead a

/-- Every row of the CIM bank reads as before. -/
def RowsKept (s t : State) : Prop := ∀ r, t.row r = s.row r

/-- Every row of the CIM bank but one reads as before. -/
def RowsKeptBut (k : Nibble) (s t : State) : Prop := ∀ r, r ≠ k → t.row r = s.row r

/-- The constant flags, the run state, the program and the parameters are as before. -/
def FixedKept (s t : State) : Prop :=
  t.flags.c = s.flags.c ∧ t.flags.l = s.flags.l ∧ t.run = s.run ∧ t.prog = s.prog ∧ t.cfg = s.cfg

/-- Only general registers of a list, `Z`, `N`, `F` and `pc` may differ. -/
def RegisterOnly (rs : List Nibble) (s t : State) : Prop :=
  RegsKeptBut rs s t ∧ MemKept s t ∧ RowsKept s t ∧ t.q = s.q ∧ FixedKept s t

/-- Every flag is as before. -/
def FlagsKept (s t : State) : Prop := t.flags = s.flags

/-- `Z` and `N` are those of a result (42_alu.md R135). -/
def FlagsOf (v : Word) (t : State) : Prop := (t.flags.z = true ↔ v = 0) ∧ (t.flags.n = true ↔ v.toInt < 0)

/-- Bit `k` of the two's-complement representation of an immediate operand (00_scope.md R7; 42_alu.md R138, R139). -/
def immBit (p : ImmExt) (imm8 : Byte) (k : Nat) : Bool :=
  if k < 8 then imm8.getLsbD k
  else match p with
    | .sext => imm8.getLsbD 7
    | .zext => false

/-- The instruction the core executes in a state: it runs, and the word at `pc` decodes to it (45_control.md R177). -/
def State.Executes (s : State) (i : Instr) : Prop :=
  s.run = .running ∧ ∃ w, s.fetch = some w ∧ decodeInstr s.cfg.registry s.cfg.strictZeroBits w = some i

/-- The instructions that write `F` (10_state.md R19). -/
def writesF : Instr → Bool
  | .add _ _ | .addi _ _ | .sub _ _ | .subi _ _ | .cmp _ _ | .cmpi _ _ => true
  | _ => false

/-- The instructions that write `Z` and `N` (10_state.md R19). -/
def writesZN : Instr → Bool
  | .and _ _ | .andi _ _ | .or _ _ | .ori _ _ | .xor _ _ | .xori _ _ | .mov _ _ | .movi _ _ | .ldcr _ _ => true
  | i => writesF i

/-- The instructions that write the CIM bank (10_state.md R25). -/
def writesBank : Instr → Bool
  | .stcr _ _ | .stcm _ _ => true
  | _ => false

/-- The instructions that write data memory (10_state.md R27). -/
def writesMemory : Instr → Bool
  | .stor _ _ | .cmpt _ _ => true
  | _ => false

/-- The instruction that writes `Q` (10_state.md R23). -/
def writesQ : Instr → Bool
  | .setq _ => true
  | _ => false

/-- The general register an instruction may write, if there is one (files 42 to 46). -/
def destination : Instr → Option Nibble
  | .add ra _ | .sub ra _ | .and ra _ | .or ra _ | .xor ra _ | .mov ra _ | .addi ra _ | .subi ra _ | .andi ra _
  | .ori ra _ | .xori ra _ | .movi ra _ | .lsh ra _ | .lshi ra _ _ | .lui ra _ | .load ra _ | .jal ra _ => some ra
  | .ldcr _ rb => some rb
  | _ => none

/-- The words no row of `REG_DEFAULT` selects under strict zero bits, by the list of 30_encoding.md R62. -/
def unassignedWord (w : Word) : Bool :=
  let op := (opField w).toNat
  let ext := (extField w).toNat
  if op = 0 then [0, 4, 6, 7, 8, 0xA, 0xC, 0xE, 0xF].contains ext && w != 0x0000
  else if op = 4 then !([0, 4, 8, 0xC].contains ext) && w != 0x4030 && w != 0x4070 && top12Field w != 0x40B
  else if op = 6 || op = 7 || op = 0xA then true
  else if op = 8 then ext ≥ 2 && ext != 4
  else if op = 0xE then !([1, 2, 3, 4, 5].contains ext) || (ext == 4 && raField w != 0)
  else false

end Sys2Proof.Machine
end

