-- ==== Sys2Proof/Certificates/Slice0/Obligations.lean ====
section
/-!
DEFINITION. The statements for the provers. Titles and the rules they rest on are in OBLIGATIONS.json. Where a statement
rests on a decision of the spec itself or on a choice of this model, its docstring names it.
-/

open Sys2Proof Sys2Proof.Machine

/-! ### Encoder and decoder -/

/-- 41_decoder.md R125, for both settings of `STRICT_ZERO_BITS`. For FIXV records whose vector is not 0 it rests on the
spec's decision D12 (log 26) and not on the source; the zeros in bits 11:8 of an I4 word are its decision D8 (log 39). -/
def Obligations.DecodeOfPackIsRecognizedInEveryStrongRegistry : Prop :=
  ∀ (strict : Bool) (reg : Registry), registryStrong strict reg = true → ∀ d ∈ reg, ∀ f : Fields,
    f.tag = d.format.tag → ∃ w, pack d f = .ok w ∧ decode reg strict w = .recognized d f

/-- Under `REG_DEFAULT` (log 4) and strict zero bits (log 5): every instruction, every operand value; the written-out word is
the packed word. For EXCP with a vector that is not 0 it rests on the spec's decision D12 (log 26) and not on the source;
the zeros in bits 11:8 of SETQ are its decision D8 (log 39). -/
def Obligations.DecodeOfEncodeIsTheInstruction : Prop :=
  ∀ i : Instr, decodeTableWord 16 (encode i).toNat = some i ∧ encodeWith regDefault i = .ok (encode i)

/-- The source's round-trip property (95_test_vectors.md SP1) on operands, for every strong registry. -/
def Obligations.DecodeOfEncodedOperandsGivesTheirFields : Prop :=
  ∀ (strict : Bool) (reg : Registry), registryStrong strict reg = true → ∀ (m : Text) (ops : List Operand) (w : Word),
    encodeOps reg m ops = .ok w →
      ∃ d f, lookup reg m = .ok d ∧ resolve d ops = .ok f ∧ decode reg strict w = .recognized d f

/-- 41_decoder.md R127: with strict zero bits the decoder drops no bit; without (decision D9, log 5), the dropped bits come back as
zero, for I4 by the spec's decision D8 (log 39). For FIXV words whose vector is not 0 the packing rests on the spec's
decision D12 (log 26) and not on the source. -/
def Obligations.RepackOfDecodedWord : Prop :=
  ∀ (reg : Registry) (w : Word) (d : Descriptor) (f : Fields),
    (decode reg true w = .recognized d f → pack d f = .ok w) ∧
    (decode reg false w = .recognized d f →
      pack d f = .ok (match d.format with
        | .ri4 _ => w &&& 0xFF1F#16
        | .i4 _ _ => w &&& 0xF0FF#16
        | _ => w))

/-- 40_encoder.md R92 (a) to (d). For FIXV records whose vector is not 0 it rests on the spec's decision D12 (log 26) and not
on the source; for the zeros in bits 11:8 of I4 words on its decision D8 (log 39). -/
def Obligations.PackIsTotalInjectiveAndExact : Prop :=
  (∀ (d : Descriptor) (f : Fields), f.tag = d.format.tag → ∃ w, pack d f = .ok w) ∧
  (∀ (d : Descriptor) (f g : Fields), f.tag = d.format.tag → g.tag = d.format.tag → pack d f = pack d g → f = g) ∧
  (∀ (strict : Bool) (d : Descriptor) (f : Fields) (w : Word), f.tag = d.format.tag → pack d f = .ok w →
    ∃ m v, d.format.mask strict = some m ∧ d.format.matchBits = some v ∧ w &&& m = v) ∧
  (∀ (d : Descriptor) (w : Word), d.format.tag.supported = true →
    (d.format.selects true w = true ↔ ∃ f : Fields, f.tag = d.format.tag ∧ pack d f = .ok w))

/-- The shift-and-or formulas of 40_encoder.md R82 to R91 as natural numbers, and R93. The FIXV sum with a vector that is not
0 rests on the spec's decision D12 (log 26) and not on the source; the zeros in bits 11:8 of I4 on its decision D8
(log 39). -/
def Obligations.PackIsTheSumOfItsShiftedFields : Prop :=
  ∀ (name tag : Text) (op ext a b : Nibble) (imm8 : Byte) (sgn : Bool) (w0 : Word) (t : Bits12),
    (∃ w, pack ⟨name, .rr op ext⟩ (.rr a b) = .ok w ∧ w.toNat = op.toNat * 4096 + a.toNat * 256 + ext.toNat * 16 + b.toNat) ∧
    (∃ w, pack ⟨name, .rs op ext⟩ (.rs a b) = .ok w ∧ w.toNat = op.toNat * 4096 + a.toNat * 256 + ext.toNat * 16 + b.toNat) ∧
    (∃ w, pack ⟨name, .jcond op ext⟩ (.jcond a b) = .ok w ∧
      w.toNat = op.toNat * 4096 + a.toNat * 256 + ext.toNat * 16 + b.toNat) ∧
    (∃ w, pack ⟨name, .i4 op ext⟩ (.i4 b) = .ok w ∧ w.toNat = op.toNat * 4096 + ext.toNat * 16 + b.toNat) ∧
    (∃ w, pack ⟨name, .ri op⟩ (.ri a imm8) = .ok w ∧ w.toNat = op.toNat * 4096 + a.toNat * 256 + imm8.toNat) ∧
    (∃ w, pack ⟨name, .ir op⟩ (.ir a imm8) = .ok w ∧ w.toNat = op.toNat * 4096 + a.toNat * 256 + imm8.toNat) ∧
    (∃ w, pack ⟨name, .bcond op⟩ (.bcond a imm8) = .ok w ∧ w.toNat = op.toNat * 4096 + a.toNat * 256 + imm8.toNat) ∧
    (∃ w, pack ⟨name, .ri4 op⟩ (.ri4 a sgn b) = .ok w ∧
      w.toNat = op.toNat * 4096 + a.toNat * 256 + (if sgn then 16 else 0) + b.toNat) ∧
    pack ⟨name, .fix w0⟩ .fix = .ok w0 ∧
    (∃ w, pack ⟨name, .fixv t⟩ (.fixv b) = .ok w ∧ w.toNat = t.toNat * 16 + b.toNat) ∧
    (∀ f : Fields, pack ⟨name, .other tag⟩ f = .error .unsupportedFormat)

/-- 30_encoding.md R54: WF5 implies WF2 and WF3; under it neither registry order nor stage priority matters, the descriptor
that selects a word is the one decoded; `REG_DEFAULT` (log 4) is strongly well-formed exactly when zero bits are strict. -/
def Obligations.StrongRegistryDecodesIndependentlyOfOrder : Prop :=
  (∀ (strict : Bool) (reg : Registry), wf5 strict reg = true → wf2 reg = true ∧ wf3 reg = true) ∧
  (∀ (strict : Bool) (reg reg' : Registry), registryStrong strict reg = true → reg.Perm reg' →
    ∀ w : Word, decode reg strict w = decode reg' strict w) ∧
  (∀ (strict : Bool) (reg : Registry), registryStrong strict reg = true → ∀ d ∈ reg, ∀ w : Word,
    d.format.selects strict w = true → decode reg strict w = .recognized d (extract d.format w)) ∧
  registryStrong true regDefault = true ∧ registryWf regDefault = true ∧ registryStrong false regDefault = false

/-- 30_encoding.md R62: which words are unassigned under `REG_DEFAULT` (log 4) with strict zero bits (log 5). -/
def Obligations.UnassignedWordsOfTheDefaultRegistry : Prop :=
  ∀ w : Word, decode regDefault true w = .unrecognized w ↔ unassignedWord w = true

/-- Words written out bit by bit from 30_encoding.md R60: ADD, ADDI, LSHI and BCOND are the source's examples of
95_test_vectors.md S1 to S4; the values behind STOR and JAL are the spec's from general knowledge (decision D2), those behind
CMPT its placeholders (decision D3), and that 0x4031 is no instruction rests on the same registry (PRESUMED, log 4). -/
def Obligations.WrittenOutWordsDecode : Prop :=
  decodeTableWord 16 0b0000000101010010 = some (.add 1 2) ∧
  decodeTableWord 16 0b0101001100001010 = some (.addi 3 10) ∧
  decodeTableWord 16 0b1000010000010101 = some (.lshi 4 true 5) ∧
  decodeTableWord 16 0b1100001011111000 = some (.bcond .cs 0xF8) ∧
  decodeTableWord 16 0b0100000101000010 = some (.stor 1 2) ∧
  decodeTableWord 16 0b0100111110000101 = some (.jal 15 5) ∧
  decodeTableWord 16 0b1110010001010111 = some (.cmpt 4 7) ∧
  decodeTableWord 16 0b0100000000110001 = none

/-- 40_encoder.md R97: the sign-and-magnitude immediate of every RI4 descriptor. -/
def Obligations.ResolveOfSignMagnitudeImmediate : Prop :=
  ∀ (name : Text) (op : Nibble) (n : Nat), n ≤ 15 →
    (∀ v : Int, 16 ≤ v.natAbs → resolve ⟨name, .ri4 op⟩ [.reg n, .imm v] = .error .immediateOutOfRange) ∧
    (∀ v : Int, v.natAbs < 16 → ∃ ra s mag, resolve ⟨name, .ri4 op⟩ [.reg n, .imm v] = .ok (.ri4 ra s mag) ∧
      ra.toNat = n ∧ (s = true ↔ v < 0) ∧ mag.toNat = v.natAbs) ∧
    (∀ (ops : List Operand) (ra mag : Nibble), resolve ⟨name, .ri4 op⟩ ops = .ok (.ri4 ra true mag) → mag ≠ 0)

/-- 40_encoder.md R95: a register operand in every position the rule names (the operands after it are ones every format
accepts); a number above 15, or an operand of another kind, fails with `InvalidRegister`, where every other
operand is an accepted one, so that no claim is made on which of two errors is reported (R102; log 27). -/
def Obligations.ResolveOfRegisterOperand : Prop :=
  ∀ (name : Text) (op ext c : Nibble),
    (∀ n m : Nat, n ≤ 15 → m ≤ 15 → ∃ ra rb, ra.toNat = n ∧ rb.toNat = m ∧
      resolve ⟨name, .rr op ext⟩ [.reg n, .reg m] = .ok (.rr ra rb) ∧
      resolve ⟨name, .rs op ext⟩ [.reg n, .reg m] = .ok (.rs ra rb) ∧
      resolve ⟨name, .jcond op ext⟩ [.cond c, .reg m] = .ok (.jcond c rb)) ∧
    (∀ (n : Nat) (v : Int), n ≤ 15 → 0 ≤ v → v ≤ 15 → ∃ (ra : Nibble) (imm8 : Byte) (mag : Nibble), ra.toNat = n ∧
      resolve ⟨name, .ri op⟩ [.reg n, .imm v] = .ok (.ri ra imm8) ∧
      resolve ⟨name, .ir op⟩ [.reg n, .imm v] = .ok (.ir ra imm8) ∧
      resolve ⟨name, .ri4 op⟩ [.reg n, .imm v] = .ok (.ri4 ra false mag)) ∧
    (∀ a : Operand, (∀ n, a = .reg n → 15 < n) →
      resolve ⟨name, .jcond op ext⟩ [.cond c, a] = .error .invalidRegister ∧
      (∀ n, n ≤ 15 → resolve ⟨name, .rr op ext⟩ [a, .reg n] = .error .invalidRegister ∧
        resolve ⟨name, .rs op ext⟩ [a, .reg n] = .error .invalidRegister ∧
        resolve ⟨name, .rr op ext⟩ [.reg n, a] = .error .invalidRegister ∧
        resolve ⟨name, .rs op ext⟩ [.reg n, a] = .error .invalidRegister) ∧
      (∀ b : Operand, (∀ n, b = .reg n → 15 < n) → resolve ⟨name, .rr op ext⟩ [a, b] = .error .invalidRegister ∧
        resolve ⟨name, .rs op ext⟩ [a, b] = .error .invalidRegister) ∧
      (∀ v : Int, 0 ≤ v → v ≤ 15 → resolve ⟨name, .ri op⟩ [a, .imm v] = .error .invalidRegister ∧
        resolve ⟨name, .ir op⟩ [a, .imm v] = .error .invalidRegister ∧
        resolve ⟨name, .ri4 op⟩ [a, .imm v] = .error .invalidRegister))

/-! ### The assembler -/

/-- 30_encoding.md R64, R65 and R72: pass 1 gives the k-th queued instruction the address k; the assembly never aborts,
every queued instruction gives one word or one diagnostic; an assembly without diagnostics and of at most 32768 words is a
program, and no other is (60_exceptions.md R218; log 34; the length is the spec's decision D15, log 8); the k-th word of a
program is the word of the k-th instruction. -/
def Obligations.AssemblyAccountsForEveryInstruction : Prop :=
  ∀ (reg : Registry) (src : Text),
    (∀ (k : Nat) (x : Queued), (labelPass src).queue[k]? = some x → x.address = k) ∧
    (assemble reg src).words.length + (assemble reg src).diagnostics.length = (labelPass src).queue.length ∧
    ((assemble reg src).diagnostics = [] → (assemble reg src).words.length ≤ 32768 →
      (assemble reg src).program = some (assemble reg src).words) ∧
    ((assemble reg src).diagnostics ≠ [] ∨ 32768 < (assemble reg src).words.length → (assemble reg src).program = none) ∧
    (∀ prog, (assemble reg src).program = some prog →
      prog.length = (labelPass src).queue.length ∧ prog.length ≤ 32768 ∧
      ∀ (k : Nat) (x : Queued), (labelPass src).queue[k]? = some x →
        ∃ w, prog[k]? = some w ∧ assembleLine reg (labelPass src).symbols x = .ok w)

/-- The branch displacement law (95_test_vectors.md SP2; 45_control.md R188): a taken branch assembled for a label in
reach lands on the label; out of reach it lands at the label modulo 256. -/
def Obligations.BranchToALabelLandsOnTheLabel : Prop :=
  ∀ (s : State) (c : Cond) (target address : Nat), condTrue c s.flags = true → s.pc = (address : Int) →
    ∃ t, exec (.bcond c (labelDisp target address)) s = .next t ∧
      (-128 ≤ (target : Int) - (address + 1) → (target : Int) - (address + 1) ≤ 127 → t.pc = (target : Int)) ∧
      (t.pc - (target : Int)) % 256 = 0

/-- 30_encoding.md R74. -/
def Obligations.MachineCodeFileReadsBack : Prop :=
  ∀ prog : List Word,
    readMachineCode (machineCode prog) = some prog ∧
    machineCode prog = (prog.map (fun w => hex4 w ++ ['\n'])).flatten ∧
    (∀ w : Word, (hex4 w).length = 4 ∧ ∀ ch ∈ hex4 w, ch ∈ "0123456789ABCDEF".toList)

/-- The table of 41_decoder.md section 3, on its words of `REG_DEFAULT`. Spacing and digits are the spec's decisions D12
and D13 (log 29). -/
def Obligations.RenderedTextOfTheTable : Prop :=
  disassemble regDefault true [0x0152, 0x530A, 0x8415, 0x8410, 0xE04F, 0xC2F8, 0x4ECF, 0x4142, 0x0000, 0x40B7, 0x4031] =
    ["ADD R1, R2".toList, "ADDI R3, 0x0A".toList, "LSHI R4, -5".toList, "LSHI R4, 0".toList, "SETQ 15".toList,
     "BCOND CS, -8".toList, "JCOND UC, R15".toList, "STOR R1, R2".toList, "WAIT".toList, "EXCP 7".toList,
     "??? (0x4031)".toList]

/-! ### Arithmetic and logic -/

/-- ADD and ADDI (42_alu.md R135, R136, R140, R141). -/
def Obligations.AddAndAddiEffect : Prop :=
  ∀ (s : State) (ra : Nibble),
    (∀ rb : Nibble, ∃ t, exec (.add ra rb) s = .next t ∧
      (t.reg ra).toInt = ((s.reg ra).toInt + (s.reg rb).toInt).bmod 65536 ∧ FlagsOf (t.reg ra) t ∧
      (t.flags.f = true ↔ (((s.reg ra).toInt < 0 ↔ (s.reg rb).toInt < 0) ∧ ¬((t.reg ra).toInt < 0 ↔ (s.reg ra).toInt < 0))) ∧
      t.pc = s.pc + 1 ∧ RegisterOnly [ra] s t) ∧
    (∀ imm8 : Byte, ∃ t, exec (.addi ra imm8) s = .next t ∧
      (t.reg ra).toInt = ((s.reg ra).toInt + immInt s.cfg.imm8.addi imm8).bmod 65536 ∧ FlagsOf (t.reg ra) t ∧
      (t.flags.f = true ↔
        (((s.reg ra).toInt < 0 ↔ immInt s.cfg.imm8.addi imm8 < 0) ∧ ¬((t.reg ra).toInt < 0 ↔ (s.reg ra).toInt < 0))) ∧
      t.pc = s.pc + 1 ∧ RegisterOnly [ra] s t)

/-- SUB and SUBI. That the destination register is the minuend is the spec's decision D17 (log 10). -/
def Obligations.SubAndSubiEffect : Prop :=
  ∀ (s : State) (ra : Nibble),
    (∀ rb : Nibble, ∃ t, exec (.sub ra rb) s = .next t ∧
      (t.reg ra).toInt = ((s.reg ra).toInt - (s.reg rb).toInt).bmod 65536 ∧ FlagsOf (t.reg ra) t ∧
      (t.flags.f = true ↔ (¬((s.reg ra).toInt < 0 ↔ (s.reg rb).toInt < 0) ∧ ¬((t.reg ra).toInt < 0 ↔ (s.reg ra).toInt < 0))) ∧
      t.pc = s.pc + 1 ∧ RegisterOnly [ra] s t) ∧
    (∀ imm8 : Byte, ∃ t, exec (.subi ra imm8) s = .next t ∧
      (t.reg ra).toInt = ((s.reg ra).toInt - immInt s.cfg.imm8.subi imm8).bmod 65536 ∧ FlagsOf (t.reg ra) t ∧
      (t.flags.f = true ↔
        (¬((s.reg ra).toInt < 0 ↔ immInt s.cfg.imm8.subi imm8 < 0) ∧ ¬((t.reg ra).toInt < 0 ↔ (s.reg ra).toInt < 0))) ∧
      t.pc = s.pc + 1 ∧ RegisterOnly [ra] s t)

/-- CMP and CMPI: no register is written; the flags are those of the narrowed difference, which SUB and SUBI of the same
operands would write. The minuend is the spec's decision D17 (log 10). -/
def Obligations.CmpAndCmpiEffect : Prop :=
  ∀ (s : State) (ra : Nibble),
    (∀ rb : Nibble, ∃ t, exec (.cmp ra rb) s = .next t ∧
      (t.flags.z = true ↔ ((s.reg ra).toInt - (s.reg rb).toInt).bmod 65536 = 0) ∧
      (t.flags.n = true ↔ ((s.reg ra).toInt - (s.reg rb).toInt).bmod 65536 < 0) ∧
      (t.flags.f = true ↔ (¬((s.reg ra).toInt < 0 ↔ (s.reg rb).toInt < 0) ∧
        ¬(((s.reg ra).toInt - (s.reg rb).toInt).bmod 65536 < 0 ↔ (s.reg ra).toInt < 0))) ∧
      t.pc = s.pc + 1 ∧ RegisterOnly [] s t) ∧
    (∀ imm8 : Byte, ∃ t, exec (.cmpi ra imm8) s = .next t ∧
      (t.flags.z = true ↔ ((s.reg ra).toInt - immInt s.cfg.imm8.cmpi imm8).bmod 65536 = 0) ∧
      (t.flags.n = true ↔ ((s.reg ra).toInt - immInt s.cfg.imm8.cmpi imm8).bmod 65536 < 0) ∧
      (t.flags.f = true ↔ (¬((s.reg ra).toInt < 0 ↔ immInt s.cfg.imm8.cmpi imm8 < 0) ∧
        ¬(((s.reg ra).toInt - immInt s.cfg.imm8.cmpi imm8).bmod 65536 < 0 ↔ (s.reg ra).toInt < 0))) ∧
      t.pc = s.pc + 1 ∧ RegisterOnly [] s t)

/-- The sign rule for `F` says exactly that the exact result is not a 16-bit number (42_alu.md R136, R137). The minuend is
the spec's decision D17 (log 10). -/
def Obligations.OverflowFlagMeansResultOutOfRange : Prop :=
  ∀ (s : State) (ra rb : Nibble) (imm8 : Byte),
    (∃ t, exec (.add ra rb) s = .next t ∧
      (t.flags.f = true ↔ ¬(-32768 ≤ (s.reg ra).toInt + (s.reg rb).toInt ∧ (s.reg ra).toInt + (s.reg rb).toInt ≤ 32767))) ∧
    (∃ t, exec (.sub ra rb) s = .next t ∧
      (t.flags.f = true ↔ ¬(-32768 ≤ (s.reg ra).toInt - (s.reg rb).toInt ∧ (s.reg ra).toInt - (s.reg rb).toInt ≤ 32767))) ∧
    (∃ t, exec (.addi ra imm8) s = .next t ∧
      (t.flags.f = true ↔ ¬(-32768 ≤ (s.reg ra).toInt + immInt s.cfg.imm8.addi imm8 ∧
        (s.reg ra).toInt + immInt s.cfg.imm8.addi imm8 ≤ 32767))) ∧
    (∃ t, exec (.cmpi ra imm8) s = .next t ∧
      (t.flags.f = true ↔ ¬(-32768 ≤ (s.reg ra).toInt - immInt s.cfg.imm8.cmpi imm8 ∧
        (s.reg ra).toInt - immInt s.cfg.imm8.cmpi imm8 ≤ 32767)))

/-- AND, OR, XOR (42_alu.md R135, R139, R146, R148, R150), bit by bit; `F` is kept. -/
def Obligations.LogicRegisterFormsEffect : Prop :=
  ∀ (s : State) (ra rb : Nibble),
    (∃ t, exec (.and ra rb) s = .next t ∧
      (∀ k, k < 16 → (t.reg ra).getLsbD k = ((s.reg ra).getLsbD k && (s.reg rb).getLsbD k)) ∧
      FlagsOf (t.reg ra) t ∧ t.flags.f = s.flags.f ∧ t.pc = s.pc + 1 ∧ RegisterOnly [ra] s t) ∧
    (∃ t, exec (.or ra rb) s = .next t ∧
      (∀ k, k < 16 → (t.reg ra).getLsbD k = ((s.reg ra).getLsbD k || (s.reg rb).getLsbD k)) ∧
      FlagsOf (t.reg ra) t ∧ t.flags.f = s.flags.f ∧ t.pc = s.pc + 1 ∧ RegisterOnly [ra] s t) ∧
    (∃ t, exec (.xor ra rb) s = .next t ∧
      (∀ k, k < 16 → (t.reg ra).getLsbD k = ((s.reg ra).getLsbD k != (s.reg rb).getLsbD k)) ∧
      FlagsOf (t.reg ra) t ∧ t.flags.f = s.flags.f ∧ t.pc = s.pc + 1 ∧ RegisterOnly [ra] s t)

/-- ANDI, ORI, XORI (42_alu.md R135, R138, R139, R147, R149, R151), bit by bit under each policy; `F` is kept. -/
def Obligations.LogicImmediateFormsEffect : Prop :=
  ∀ (s : State) (ra : Nibble) (imm8 : Byte),
    (∃ t, exec (.andi ra imm8) s = .next t ∧
      (∀ k, k < 16 → (t.reg ra).getLsbD k = ((s.reg ra).getLsbD k && immBit s.cfg.imm8.andi imm8 k)) ∧
      FlagsOf (t.reg ra) t ∧ t.flags.f = s.flags.f ∧ t.pc = s.pc + 1 ∧ RegisterOnly [ra] s t) ∧
    (∃ t, exec (.ori ra imm8) s = .next t ∧
      (∀ k, k < 16 → (t.reg ra).getLsbD k = ((s.reg ra).getLsbD k || immBit s.cfg.imm8.ori imm8 k)) ∧
      FlagsOf (t.reg ra) t ∧ t.flags.f = s.flags.f ∧ t.pc = s.pc + 1 ∧ RegisterOnly [ra] s t) ∧
    (∃ t, exec (.xori ra imm8) s = .next t ∧
      (∀ k, k < 16 → (t.reg ra).getLsbD k = ((s.reg ra).getLsbD k != immBit s.cfg.imm8.xori imm8 k)) ∧
      FlagsOf (t.reg ra) t ∧ t.flags.f = s.flags.f ∧ t.pc = s.pc + 1 ∧ RegisterOnly [ra] s t)

/-- MOV and MOVI (42_alu.md R135, R138, R152, R153). -/
def Obligations.MovAndMoviEffect : Prop :=
  ∀ (s : State) (ra : Nibble),
    (∀ rb : Nibble, ∃ t, exec (.mov ra rb) s = .next t ∧ t.reg ra = s.reg rb ∧ FlagsOf (t.reg ra) t ∧
      t.flags.f = s.flags.f ∧ t.pc = s.pc + 1 ∧ RegisterOnly [ra] s t) ∧
    (∀ imm8 : Byte, ∃ t, exec (.movi ra imm8) s = .next t ∧ (t.reg ra).toInt = immInt s.cfg.imm8.movi imm8 ∧
      FlagsOf (t.reg ra) t ∧ t.flags.f = s.flags.f ∧ t.pc = s.pc + 1 ∧ RegisterOnly [ra] s t)

/-- 42_alu.md R138: the integer of an immediate under each policy, and that on 0 to 127 the policies agree. -/
def Obligations.ImmediateOperandUnderEachPolicy : Prop :=
  ∀ imm8 : Byte, immInt .zext imm8 = (imm8.toNat : Int) ∧
    immInt .sext imm8 = (if imm8.toNat < 128 then (imm8.toNat : Int) else (imm8.toNat : Int) - 256) ∧
    (imm8.toNat < 128 → immInt .zext imm8 = immInt .sext imm8)

/-! ### Shifts and load upper -/

/-- LSH. No flag is written by the spec's decision D19 (log 11), and a non-negative amount of 16 or more gives 0 by its
decision D20 (log 12). -/
def Obligations.LshEffect : Prop :=
  ∀ (s : State) (ra rb : Nibble), ∃ t, exec (.lsh ra rb) s = .next t ∧
    ((s.reg rb).toInt < 0 → (t.reg ra).toNat = (s.reg ra).toNat * 2 ^ ((s.reg rb).toNat % 16) % 65536) ∧
    (0 ≤ (s.reg rb).toInt → (s.reg rb).toInt < 16 →
      (t.reg ra).toNat = (s.reg ra).toNat * 2 ^ (s.reg rb).toNat % 65536) ∧
    (16 ≤ (s.reg rb).toInt → t.reg ra = 0) ∧
    FlagsKept s t ∧ t.pc = s.pc + 1 ∧ RegisterOnly [ra] s t

/-- LSHI with an amount that is not negative, the record `s = 1, mag = 0` among them (the spec's decision D11, log 32). No
flag is written by its decision D19 (log 11). -/
def Obligations.LshiEffect : Prop :=
  ∀ (s : State) (ra mag : Nibble) (sgn : Bool), sgn = false ∨ mag = 0 → ∃ t, exec (.lshi ra sgn mag) s = .next t ∧
    (t.reg ra).toNat = (s.reg ra).toNat * 2 ^ mag.toNat % 65536 ∧
    FlagsKept s t ∧ t.pc = s.pc + 1 ∧ RegisterOnly [ra] s t

/-- LSHI with a negative amount, STCR and LDCR with an index that is no row number: the core faults and nothing but the run
state changes, by the spec's decisions D21 (log 13) and D22 (log 14). -/
def Obligations.FaultsChangeOnlyTheRunState : Prop :=
  (∀ (s : State) (ra mag : Nibble), mag ≠ 0 →
    exec (.lshi ra true mag) s = .next { s with run := .faulted (.negativeShift (-(mag.toNat : Int))) }) ∧
  (∀ (s : State) (ra rb : Nibble), (s.reg rb).toInt < 0 ∨ 15 < (s.reg rb).toInt →
    exec (.stcr ra rb) s = .next { s with run := .faulted (.cimIndex (s.reg rb).toInt) }) ∧
  (∀ (s : State) (ra rb : Nibble), (s.reg ra).toInt < 0 ∨ 15 < (s.reg ra).toInt →
    exec (.ldcr ra rb) s = .next { s with run := .faulted (.cimIndex (s.reg ra).toInt) })

/-- LUI, whatever the policy. No flag is written by the spec's decision D19 (log 11). -/
def Obligations.LuiEffect : Prop :=
  ∀ (s : State) (ra : Nibble) (imm8 : Byte), ∃ t, exec (.lui ra imm8) s = .next t ∧
    (t.reg ra).toNat = imm8.toNat * 256 ∧ FlagsKept s t ∧ t.pc = s.pc + 1 ∧ RegisterOnly [ra] s t

/-! ### Load and store -/

/-- 20_memory.md R31: what a slot holds after a write to it and after a write to another, which registers name the same
slot, and that the four instructions that access data memory never fault. -/
def Obligations.SlotReadsAndAddressMask : Prop :=
  (∀ (s : State) (a b : SlotAddr) (v : Word), (s.memWrite a v).memRead b = if b = a then v else s.memRead b) ∧
  (∀ (s : State) (i j : Nibble), s.ea i = s.ea j ↔ ((s.reg i).toInt - (s.reg j).toInt) % 512 = 0) ∧
  (∀ (s : State) (i : Nibble), s.reg i = 0x0300 ∨ s.reg i = 0x0100 ∨ s.reg i = 0xFF00 → s.ea i = 0x100) ∧
  (∀ (s : State) (ra rb : Nibble), ∀ i ∈ [Instr.load ra rb, .stor ra rb, .stcm ra rb, .cmpt ra rb],
    ∃ t, exec i s = .next t ∧ t.run = s.run)

/-- LOAD. No flag is written by the spec's decision D19 (log 11). -/
def Obligations.LoadEffect : Prop :=
  ∀ (s : State) (ra rb : Nibble) (a : SlotAddr), a.toNat = (s.reg rb).toNat % 512 →
    ∃ t, exec (.load ra rb) s = .next t ∧ t.reg ra = s.memRead a ∧
      FlagsKept s t ∧ t.pc = s.pc + 1 ∧ RegisterOnly [ra] s t

/-- STOR. No flag is written by the spec's decision D19 (log 11). -/
def Obligations.StorEffect : Prop :=
  ∀ (s : State) (ra rb : Nibble), (s.ea rb).toNat = (s.reg rb).toNat % 512 ∧
    ∃ t, exec (.stor ra rb) s = .next t ∧ t.memRead (s.ea rb) = s.reg ra ∧ MemKeptBut (s.ea rb) s t ∧
      RegsKeptBut [] s t ∧ RowsKept s t ∧ t.q = s.q ∧ FlagsKept s t ∧ FixedKept s t ∧ t.pc = s.pc + 1

/-! ### Control transfer and system -/

/-- 30_encoding.md R57, the table and the reduced table, on the codes of R56. -/
def Obligations.ConditionTruthTable : Prop :=
  ∀ f : Flags,
    (List.range 16).map (fun k => condTrue (Cond.ofCode (BitVec.ofNat 4 k)) f) =
      [f.z, !f.z, f.c, !f.c, f.l, !f.l, f.n, !f.n, f.f, !f.f, !f.l && !f.z, f.l || f.z, !f.n && !f.z, f.n || f.z, true, false] ∧
    (f.c = false → f.l = false → (List.range 16).map (fun k => condTrue (Cond.ofCode (BitVec.ofNat 4 k)) f) =
      [f.z, !f.z, false, true, false, true, f.n, !f.n, f.f, !f.f, !f.z, f.z, !f.n && !f.z, f.n || f.z, true, false])

/-- BCOND and JCOND (45_control.md R180, R181). That JCOND reads its target as a signed number and `pc` has no width is the
spec's decision D15 (log 8), that no flag is written its decision D19 (log 11). -/
def Obligations.BcondAndJcondEffect : Prop :=
  ∀ (s : State) (c : Cond),
    (∀ disp : Byte, ∃ t, exec (.bcond c disp) s = .next t ∧
      t.pc = s.pc + 1 + (if condTrue c s.flags = true then
        (if disp.toNat < 128 then (disp.toNat : Int) else (disp.toNat : Int) - 256) else 0) ∧
      FlagsKept s t ∧ RegisterOnly [] s t) ∧
    (∀ rb : Nibble, ∃ t, exec (.jcond c rb) s = .next t ∧
      t.pc = (if condTrue c s.flags = true then (s.reg rb).toInt else s.pc + 1) ∧ FlagsKept s t ∧ RegisterOnly [] s t)

/-- JAL with two registers. The width of the link and the signed reading of the target are the spec's decision D15
(log 8), that no flag is written its decision D19 (log 11). -/
def Obligations.JalEffect : Prop :=
  ∀ (s : State) (ra rb : Nibble), ra ≠ rb → ∃ t, exec (.jal ra rb) s = .next t ∧
    ((t.reg ra).toNat : Int) = (s.pc + 1) % 65536 ∧ t.pc = (s.reg rb).toInt ∧ FlagsKept s t ∧ RegisterOnly [ra] s t

/-- EXCP and JAL with one register have no meaning: the spec's decisions D25 (log 16) and D23 (log 15). -/
def Obligations.ExcpAndJalOfOneRegisterAreRefused : Prop :=
  (∀ (s : State) (vec : Nibble), exec (.excp vec) s = .refused (.excpHasNoMeaning vec)) ∧
  (∀ (s : State) (r : Nibble), exec (.jal r r) s = .refused (.jalSameRegister r))

/-- WAIT under both policies. That `pc` stays at the WAIT is the spec's decision D24 (log 7). -/
def Obligations.WaitEffect : Prop :=
  ∀ s : State, ∃ t, exec .wait s = .next t ∧ FlagsKept s t ∧ RegsKeptBut [] s t ∧ MemKept s t ∧ RowsKept s t ∧
    t.q = s.q ∧ t.prog = s.prog ∧ t.cfg = s.cfg ∧
    (s.cfg.wait = .halt → t.run = .halted .wait ∧ t.pc = s.pc) ∧ (s.cfg.wait = .nop → t.run = s.run ∧ t.pc = s.pc + 1)

/-- DI and EI change no state but `pc`. The names are the spec's decision D4 (log 4). -/
def Obligations.DiAndEiEffect : Prop :=
  ∀ s : State, ∃ t, exec .di s = .next t ∧ exec .ei s = .next t ∧ t.pc = s.pc + 1 ∧ FlagsKept s t ∧ RegisterOnly [] s t

/-! ### CIM -/

/-- STCR with a row number, and STCM with both indices masked. No flag is written by the spec's decision D19 (log 11). -/
def Obligations.StcrAndStcmEffect : Prop :=
  ∀ (s : State) (ra rb r : Nibble),
    ((s.reg rb).toInt = (r.toNat : Int) → ∃ t, exec (.stcr ra rb) s = .next t ∧ t.row r = s.reg ra ∧
      RowsKeptBut r s t ∧ RegsKeptBut [] s t ∧ MemKept s t ∧ t.q = s.q ∧ FlagsKept s t ∧ FixedKept s t ∧
      t.pc = s.pc + 1) ∧
    (∀ a : SlotAddr, r.toNat = (s.reg ra).toNat % 16 → a.toNat = (s.reg rb).toNat % 512 →
      ∃ t, exec (.stcm ra rb) s = .next t ∧ t.row r = s.memRead a ∧ RowsKeptBut r s t ∧ RegsKeptBut [] s t ∧
        MemKept s t ∧ t.q = s.q ∧ FlagsKept s t ∧ FixedKept s t ∧ t.pc = s.pc + 1)

/-- LDCR with a row number (46_cim.md R200): `Z` and `N` from the row, `F` kept; the destination is the second operand,
by the spec's decision D6 (log 24). -/
def Obligations.LdcrEffect : Prop :=
  ∀ (s : State) (ra rb r : Nibble), (s.reg ra).toInt = (r.toNat : Int) → ∃ t, exec (.ldcr ra rb) s = .next t ∧
    t.reg rb = s.row r ∧ FlagsOf (s.row r) t ∧ t.flags.f = s.flags.f ∧ t.pc = s.pc + 1 ∧ RegisterOnly [rb] s t

/-- SETQ (46_cim.md R202). No flag is written by the spec's decision D19 (log 11). -/
def Obligations.SetqEffect : Prop :=
  ∀ (s : State) (imm4 : Nibble), ∃ t, exec (.setq imm4) s = .next t ∧ t.q = imm4 ∧ RegsKeptBut [] s t ∧ RowsKept s t ∧
    MemKept s t ∧ FlagsKept s t ∧ FixedKept s t ∧ t.pc = s.pc + 1

/-- CMPT (46_cim.md R203 to R209): each nibble of the stored word is the exact dot product of the lane's row, the base row
from the register index, divided toward zero by `2^Q`, modulo 16. No flag is written by the spec's decision D19 (log 11). -/
def Obligations.CmptEffect : Prop :=
  ∀ (s : State) (ra rb : Nibble), ∃ t, exec (.cmpt ra rb) s = .next t ∧
    (∀ (k : Fin 4) (r : Nibble), r.toNat = ra.toNat % 4 + 4 * k.val →
      ((nibble (t.memRead (s.ea rb)) k).toNat : Int) =
        ((∑ j : Fin 4, snib (s.row r) j * snib (s.reg ra) j).tdiv (2 ^ s.q.toNat)) % 16) ∧
    (s.ea rb).toNat = (s.reg rb).toNat % 512 ∧ MemKeptBut (s.ea rb) s t ∧
    RegsKeptBut [] s t ∧ RowsKept s t ∧ t.q = s.q ∧ FlagsKept s t ∧ FixedKept s t ∧ t.pc = s.pc + 1

/-- 46_cim.md R205: the exact sum, its range and the range of each product, and the same activation word for all lanes. -/
def Obligations.AccumulatorIsTheExactSumInRange : Prop :=
  (∀ row act : Word, dot row act = ∑ j : Fin 4, snib row j * snib act j ∧ -224 ≤ dot row act ∧ dot row act ≤ 256) ∧
  (∀ (row act : Word) (j : Fin 4), -56 ≤ snib row j * snib act j ∧ snib row j * snib act j ≤ 64) ∧
  (∀ (r0 r1 r2 r3 act : Word) (q : Nibble), cmptWord r0 r1 r2 r3 act q =
    nibbles (lane r3 act q) (lane r2 act q) (lane r1 act q) (lane r0 act q)) ∧
  dot 0x8888 0x7777 = -224 ∧ dot 0x7777 0x8888 = -224 ∧ dot 0x8888 0x8888 = 256

/-- 46_cim.md R206. -/
def Obligations.QuantizationTruncatesTowardZero : Prop :=
  (∀ (acc : Int) (q : Nat), quant acc q = acc.tdiv (2 ^ q)) ∧
  (∀ (acc : Int) (q : Nat), quant acc q ≠ acc / 2 ^ q ↔ acc < 0 ∧ ¬((2 : Int) ^ q ∣ acc)) ∧
  (∀ (acc : Int) (q : Nat), -224 ≤ acc → acc ≤ 256 → 9 ≤ q → quant acc q = 0) ∧
  (∀ acc : Int, -224 ≤ acc → acc ≤ 256 → quant acc 8 = if acc = 256 then 1 else 0) ∧
  quant (-5) 1 = -2 ∧ quant (-9) 1 = -4

/-- 46_cim.md R207 and R208: lane `k` is the low 4 bits of the shifted accumulator of row `k`, read again as a signed
nibble it is that value wrapped to -8 to 7, and the first and the last lane of a CMPT come from the rows `base` and
`base + 12`. -/
def Obligations.LanesWrapAndPackInOrder : Prop :=
  (∀ (rows : Fin 4 → Word) (act : Word) (q : Nibble) (k : Fin 4),
    ((nibble (cmptWord (rows 0) (rows 1) (rows 2) (rows 3) act q) k).toNat : Int) = quant (dot (rows k) act) q.toNat % 16 ∧
    snib (cmptWord (rows 0) (rows 1) (rows 2) (rows 3) act q) k = (quant (dot (rows k) act) q.toNat).bmod 16) ∧
  (∀ (s : State) (ra first last : Nibble), first.toNat = ra.toNat % 4 → last.toNat = ra.toNat % 4 + 12 →
    nibble (s.cmptResult ra) 0 = lane (s.row first) (s.reg ra) s.q ∧
    nibble (s.cmptResult ra) 3 = lane (s.row last) (s.reg ra) s.q)

/-- 46_cim.md R210: the value stored depends on the four rows, the activation word and `Q` alone. -/
def Obligations.CmptStoresAPureFunctionOfItsInputs : Prop :=
  ∀ (s s' : State) (ra ra' rb rb' : Nibble),
    (∀ k : Fin 4, s.row (cmptRow ra k) = s'.row (cmptRow ra' k)) → s.reg ra = s'.reg ra' → s.q = s'.q →
    ∃ t t', exec (.cmpt ra rb) s = .next t ∧ exec (.cmpt ra' rb') s' = .next t' ∧
      t.memRead (s.ea rb) = t'.memRead (s'.ea rb')

/-- 46_cim.md R211, the source's worked example, in every state of that kind. -/
def Obligations.CmptWorkedExample : Prop :=
  ∀ (s : State) (ra rb : Nibble), s.reg ra = 0x1111 → s.q = 0 →
    (∀ k : Fin 4, s.row (cmptRow ra k) = 0x1111) → ∃ t, exec (.cmpt ra rb) s = .next t ∧ t.memRead (s.ea rb) = 0x4444

/-- The datapath behind the ports of 46_cim.md R193 does what the five instructions do. The ports are the spec's decision
D5, the values of unused output ports the model's (log 33). -/
def Obligations.CimPortsRefineTheInstructions : Prop :=
  ∀ (s : State) (ra rb imm4 : Nibble),
    exec (.stcr ra rb) s = .next (s.cimStep .stcr ra rb imm4) ∧
    exec (.stcm ra rb) s = .next (s.cimStep .stcm ra rb imm4) ∧
    exec (.ldcr ra rb) s = .next (s.cimStep .ldcr ra rb imm4) ∧
    exec (.setq imm4) s = .next (s.cimStep .setq ra rb imm4) ∧
    exec (.cmpt ra rb) s = .next (s.cimStep .cmpt ra rb imm4)

/-! ### The step -/

/-- 45_control.md R177: a step runs the decoded instruction, and adds nothing around it. -/
def Obligations.StepRunsTheDecodedInstruction : Prop :=
  ∀ (s : State) (w : Word) (i : Instr), s.run = .running → 0 ≤ s.pc → s.prog[s.pc.toNat]? = some w →
    decodeInstr s.cfg.registry s.cfg.strictZeroBits w = some i → step s = exec i s

/-- 45_control.md R178, with the converse: only a fetch outside the program ends a run with `ProgramEnd`; an instruction
may set `pc` to any target, and a halting instruction ends a run too. -/
def Obligations.ProgramEndExactlyOutsideTheProgram : Prop :=
  ∀ s : State, s.run = .running →
    (s.pc < 0 ∨ (s.prog.length : Int) ≤ s.pc → step s = .next { s with run := .halted .programEnd }) ∧
    (∀ t, step s = .next t → t.run = .halted .programEnd → s.pc < 0 ∨ (s.prog.length : Int) ≤ s.pc) ∧
    (s.Executes .wait → s.cfg.wait = .halt → ∃ t, step s = .next t ∧ t.run = .halted .wait) ∧
    step (startWith []) = .next { startWith [] with run := .halted .programEnd }

/-- A word the decoder does not recognize is skipped (the spec's decision D26, log 17), and a core that is not running does
not change (10_state.md R24). -/
def Obligations.SkipAndTerminalSteps : Prop :=
  (∀ (s : State) (w : Word), s.run = .running → s.fetch = some w →
    decode s.cfg.registry s.cfg.strictZeroBits w = .unrecognized w → step s = .next { s with pc := s.pc + 1 }) ∧
  (∀ s : State, s.run ≠ .running → step s = .next s)

/-- The only refusals: JAL of one register (decision D23, log 15), EXCP (D25, log 16), no execution rule (log 18). -/
def Obligations.OnlyThreeRefusals : Prop :=
  ∀ (s : State) (r : Refusal), step s = .refused r →
    (∃ x, s.Executes (.jal x x) ∧ r = .jalSameRegister x) ∨ (∃ v, s.Executes (.excp v) ∧ r = .excpHasNoMeaning v) ∨
    (∃ w d f, s.fetch = some w ∧ decode s.cfg.registry s.cfg.strictZeroBits w = .recognized d f ∧
      decodeInstr s.cfg.registry s.cfg.strictZeroBits w = none ∧ r = .noExecutionRule d.mnemonic)

/-- A step that leaves `Running` changes the run state only, and for one of four reasons (60_exceptions.md R222, R223; the
faults are the spec's decisions D21 and D22, log 13, 14; that WAIT keeps `pc` its decision D24, log 7). -/
def Obligations.LeavingRunningChangesOnlyTheRunState : Prop :=
  ∀ s t : State, s.run = .running → step s = .next t → t.run ≠ .running →
    t = { s with run := t.run } ∧
    ((t.run = .halted .programEnd ∧ s.fetch = none) ∨ (t.run = .halted .wait ∧ s.Executes .wait ∧ s.cfg.wait = .halt) ∨
     (∃ ra mag, s.Executes (.lshi ra true mag) ∧ mag ≠ 0 ∧ t.run = .faulted (.negativeShift (-(mag.toNat : Int)))) ∨
     (∃ ra rb n, (s.Executes (.stcr ra rb) ∧ n = (s.reg rb).toInt ∨ s.Executes (.ldcr ra rb) ∧ n = (s.reg ra).toInt) ∧
       (n < 0 ∨ 15 < n) ∧ t.run = .faulted (.cimIndex n)))

/-- 10_state.md R20: `C` and `L` are never written; in every run they are false, and the six conditions that read them are
constant or are those of `Z`. -/
def Obligations.CarryAndLowerThanAreNeverWritten : Prop :=
  (∀ s t : State, step s = .next t → t.flags.c = s.flags.c ∧ t.flags.l = s.flags.l) ∧
  (∀ (prog : List Word) (t : State), Reaches (startWith prog) t → t.flags.c = false ∧ t.flags.l = false ∧
    condTrue .cs t.flags = false ∧ condTrue .cc t.flags = true ∧ condTrue .hi t.flags = false ∧ condTrue .ls t.flags = true ∧
    condTrue .lo t.flags = !t.flags.z ∧ condTrue .hs t.flags = t.flags.z)

/-- Who writes which piece of state (10_state.md R13, R19, R23, R25, R27). That the other instructions write no flag is the
spec's decision D19 (log 11). -/
def Obligations.EveryChangeHasItsWriter : Prop :=
  ∀ s t : State, step s = .next t →
    (t.flags.f ≠ s.flags.f → ∃ i, s.Executes i ∧ writesF i = true) ∧
    (t.flags.z ≠ s.flags.z ∨ t.flags.n ≠ s.flags.n → ∃ i, s.Executes i ∧ writesZN i = true) ∧
    (t.q ≠ s.q → ∃ i, s.Executes i ∧ writesQ i = true) ∧
    (t.cim ≠ s.cim → ∃ i, s.Executes i ∧ writesBank i = true) ∧
    (t.dmem ≠ s.dmem → ∃ i, s.Executes i ∧ writesMemory i = true) ∧
    (∀ r, t.reg r ≠ s.reg r → ∃ i, s.Executes i ∧ destination i = some r)

/-- No step changes the program or the parameters (10_state.md R10, 20_memory.md R40, 70_reset_and_hazards.md R237). -/
def Obligations.ProgramAndParametersAreFixed : Prop :=
  ∀ s t : State, Reaches s t → t.prog = s.prog ∧ t.cfg = s.cfg

/-- The invariant: canonical data memory (log 19), `C` and `L` false, never `Z` and `N` together, a legal program
length (log 8). -/
def Obligations.EveryStepKeepsTheInvariant : Prop :=
  ∀ s t : State, s.Inv → step s = .next t → t.Inv

/-- The invariant holds at reset and at the start of every program of legal length. -/
def Obligations.TheInvariantHoldsAtTheStart : Prop :=
  State.reset.Inv ∧ ∀ prog : List Word, prog.length ≤ 32768 → (startWith prog).Inv

/-- 10_state.md R14, R17, R28. -/
def Obligations.ResetZeroesRegistersMemoryAndProgramCounter : Prop :=
  (∀ i, State.reset.reg i = 0) ∧ State.reset.pc = 0 ∧ (∀ a, State.reset.memRead a = 0)

/-- The rest of the reset state. The flags are the spec's decision D16 (log 9); the parameters are the defaults (log 2). -/
def Obligations.ResetOfTheOtherState : Prop :=
  (∀ r, State.reset.row r = 0) ∧ State.reset.q = 0 ∧ State.reset.run = .running ∧
  State.reset.flags = { z := false, n := false, f := false, c := false, l := false } ∧ State.reset.cfg = paramsDefault

/-- 70_reset_and_hazards.md R246: a larger limit does not change the end of a run that ends; the ceiling is the spec's
decision D30 (log 31). -/
def Obligations.StepLimitDoesNotChangeAnEnd : Prop :=
  ∀ (s : State) (k n : Nat) (e : RunEnd), runSteps k s = e → (∀ t, e ≠ .limit t) → k ≤ n → runSteps n s = e

/-- 70_reset_and_hazards.md R236 and R237: a reset in any state gives every piece of state its reset value, keeps the program
and the parameters and so the invariant; nothing else leaves `Halted` or `Faulted`. The reset value of the flags is the
spec's decision D16 (log 9). -/
def Obligations.ResetIsTheOnlyWayOutAndKeepsTheProgram : Prop :=
  ∀ s : State,
    ((∀ i, s.restart.reg i = 0) ∧ s.restart.pc = 0 ∧ (∀ a, s.restart.memRead a = 0) ∧ (∀ r, s.restart.row r = 0) ∧
      s.restart.q = 0 ∧ s.restart.flags = { z := false, n := false, f := false, c := false, l := false } ∧
      s.restart.run = .running ∧ s.restart.prog = s.prog ∧ s.restart.cfg = s.cfg) ∧
    (programWf s.prog = true → s.restart.Inv) ∧
    (s.run ≠ .running → ∀ t, Reaches s t → t = s)
end

