-- ==== Sys2Proof/Laws/Bits.lean ====
section
/-!
SUPPORT. The fields of a word put together from nibbles, and a word put together from its fields.
-/

namespace Sys2Proof

@[simp] theorem opField_nibbles (a b c d : Nibble) : opField (nibbles a b c d) = a := by
  apply BitVec.eq_of_getLsbD_eq
  intro i hi
  simp only [opField, nibbles, BitVec.getLsbD_extractLsb', BitVec.getLsbD_append]
  have : i = 0 ∨ i = 1 ∨ i = 2 ∨ i = 3 := by omega
  rcases this with rfl | rfl | rfl | rfl <;> simp

@[simp] theorem raField_nibbles (a b c d : Nibble) : raField (nibbles a b c d) = b := by
  apply BitVec.eq_of_getLsbD_eq
  intro i hi
  simp only [raField, nibbles, BitVec.getLsbD_extractLsb', BitVec.getLsbD_append]
  have : i = 0 ∨ i = 1 ∨ i = 2 ∨ i = 3 := by omega
  rcases this with rfl | rfl | rfl | rfl <;> simp

@[simp] theorem extField_nibbles (a b c d : Nibble) : extField (nibbles a b c d) = c := by
  apply BitVec.eq_of_getLsbD_eq
  intro i hi
  simp only [extField, nibbles, BitVec.getLsbD_extractLsb', BitVec.getLsbD_append]
  have : i = 0 ∨ i = 1 ∨ i = 2 ∨ i = 3 := by omega
  rcases this with rfl | rfl | rfl | rfl <;> simp

@[simp] theorem rbField_nibbles (a b c d : Nibble) : rbField (nibbles a b c d) = d := by
  apply BitVec.eq_of_getLsbD_eq
  intro i hi
  simp only [rbField, nibbles, BitVec.getLsbD_extractLsb', BitVec.getLsbD_append]
  have : i = 0 ∨ i = 1 ∨ i = 2 ∨ i = 3 := by omega
  rcases this with rfl | rfl | rfl | rfl <;> simp

/-- A word is its four nibbles (30_encoding.md R46). -/
theorem nibbles_fields (w : Word) : nibbles (opField w) (raField w) (extField w) (rbField w) = w := by
  apply BitVec.eq_of_getLsbD_eq
  intro i hi
  simp only [nibbles, opField, raField, extField, rbField, BitVec.getLsbD_append, BitVec.getLsbD_extractLsb']
  by_cases h1 : i < 4
  · simp [h1]
  by_cases h2 : i < 8
  · simp [h1, show i - 4 < 4 by omega, show 4 + (i - 4) = i by omega]
  by_cases h3 : i < 12
  · simp [h1, show ¬ i - 4 < 4 by omega, show i - 4 - 4 < 4 by omega, show 8 + (i - 4 - 4) = i by omega]
  · simp [h1, show ¬ i - 4 < 4 by omega, show ¬ i - 4 - 4 < 4 by omega, show i - 4 - 4 - 4 < 4 by omega,
      show 12 + (i - 4 - 4 - 4) = i by omega]

/-- The value of a word put together from nibbles. -/
theorem nibbles_toNat (a b c d : Nibble) :
    (nibbles a b c d).toNat = a.toNat * 4096 + b.toNat * 256 + c.toNat * 16 + d.toNat := by
  have hb := b.isLt
  have hc := c.isLt
  have hd := d.isLt
  simp only [nibbles, BitVec.toNat_append]
  rw [← Nat.shiftLeft_add_eq_or_of_lt hd, ← Nat.shiftLeft_add_eq_or_of_lt hc, ← Nat.shiftLeft_add_eq_or_of_lt hb]
  simp only [Nat.shiftLeft_eq]
  omega

/-- A byte is its two nibbles. -/
theorem hi_append_lo (b : Byte) : (hiNibble b ++ loNibble b : BitVec 8) = b := by
  apply BitVec.eq_of_getLsbD_eq
  intro i hi
  simp only [hiNibble, loNibble, BitVec.getLsbD_append, BitVec.getLsbD_extractLsb']
  by_cases h1 : i < 4
  · simp [h1]
  · simp [h1, show i - 4 < 4 by omega, show 4 + (i - 4) = i by omega]

/-- The RI wiring: a byte field written as two nibbles (40_encoder.md R81, wiring W2). -/
theorem nibbles_byte (a b : Nibble) (v : Byte) : nibbles a b (hiNibble v) (loNibble v) = a ++ b ++ v := by
  apply BitVec.eq_of_getLsbD_eq
  intro i hi
  simp only [nibbles, hiNibble, loNibble, BitVec.getLsbD_append, BitVec.getLsbD_extractLsb']
  by_cases h1 : i < 4
  · simp [h1, show i < 8 by omega]
  by_cases h2 : i < 8
  · simp [h1, h2, show i - 4 < 4 by omega, show 4 + (i - 4) = i by omega]
  · simp [h1, h2, show ¬ i - 4 < 4 by omega, show i - 4 - 4 = i - 8 by omega]

/-- The low byte of a word is its two low nibbles. -/
theorem imm8Field_nibbles (a b c d : Nibble) : imm8Field (nibbles a b c d) = c ++ d := by
  apply BitVec.eq_of_getLsbD_eq
  intro i hi
  simp only [imm8Field, nibbles, BitVec.getLsbD_extractLsb', BitVec.getLsbD_append]
  by_cases h1 : i < 4
  · simp [h1, show i < 8 by omega]
  · simp [h1, show i < 8 by omega, show i - 4 < 4 by omega]

end Sys2Proof
end

