-- ==== Sys2Proof/Laws/Memory.lean ====
section
/-!
SUPPORT. The laws of data memory: reading what was written, and the canonical form kept by every operation.
-/

namespace Sys2Proof.Machine

@[simp] theorem Memory.read_nil (a : Nat) : Memory.read [] a = unlistedSlot := rfl

theorem Memory.read_cons (c : Slot) (m : Memory) (a : Nat) :
    Memory.read (c :: m) a = if c.1 = a then c.2 else Memory.read m a := by
  by_cases h : c.1 = a <;> simp [Memory.read, h]

theorem Memory.read_of_absent (m : Memory) (a : Nat) (h : ∀ c ∈ m, c.1 ≠ a) : Memory.read m a = unlistedSlot := by
  induction m with
  | nil => rfl
  | cons c cs ih =>
    rw [Memory.read_cons, if_neg (h c (by simp))]
    exact ih (fun d hd => h d (by simp [hd]))

/-- A slot that is inserted is read; every other slot reads as before. -/
theorem Memory.read_insert (a b : Nat) (v : Word) (m : Memory) (h : ∀ c ∈ m, c.1 ≠ a) :
    Memory.read (Memory.insert a v m) b = if b = a then v else Memory.read m b := by
  induction m with
  | nil => simp [Memory.insert, Memory.read_cons, eq_comm]
  | cons c cs ih =>
    have hc : c.1 ≠ a := h c (by simp)
    have ih := ih (fun d hd => h d (by simp [hd]))
    unfold Memory.insert
    split
    · simp [Memory.read_cons, eq_comm]
    · rw [Memory.read_cons, ih, Memory.read_cons]
      by_cases hb : b = a
      · subst hb; simp [hc]
      · simp [hb]

theorem Memory.read_filter_ne (a b : Nat) (m : Memory) :
    Memory.read (m.filter (fun c => c.1 != a)) b = if b = a then unlistedSlot else Memory.read m b := by
  induction m with
  | nil => simp
  | cons c cs ih =>
    by_cases hc : c.1 = a
    · simp only [List.filter_cons, hc, bne_self_eq_false, Bool.false_eq_true, if_false, ih, Memory.read_cons]
      by_cases hb : b = a
      · simp [hb]
      · simp [hb, Ne.symm hb]
    · simp only [List.filter_cons, bne_iff_ne, ne_eq, hc, not_false_eq_true, if_true, Memory.read_cons, ih]
      by_cases hb : b = a
      · subst hb; simp [hc]
      · simp [hb]

/-- What every slot reads as after a write, on any list of slots. -/
theorem Memory.read_write (m : Memory) (a b : Nat) (v : Word) :
    Memory.read (Memory.write m a v) b = if b = a then v else Memory.read m b := by
  unfold Memory.write
  by_cases hv : v = unlistedSlot
  · simp [hv, Memory.read_filter_ne]
  · simp only [hv, if_false]
    rw [Memory.read_insert a b v _ (by simp), Memory.read_filter_ne]
    by_cases hb : b = a <;> simp [hb]

/-- Reading a slot after writing one (20_memory.md R31). -/
theorem State.memWrite_memRead (s : State) (a b : SlotAddr) (v : Word) :
    (s.memWrite a v).memRead b = if b = a then v else s.memRead b := by
  simp only [State.memRead, State.memWrite, Memory.read_write, BitVec.toNat_inj]

/-! ### The canonical form -/

theorem Memory.wf_cons (c : Slot) (m : Memory) :
    Memory.wf (c :: m) = true ↔ c.1 < dmemSlots ∧ c.2 ≠ unlistedSlot ∧ (∀ d ∈ m, c.1 < d.1) ∧ Memory.wf m = true := by
  simp [Memory.wf, and_assoc]

theorem Memory.mem_insert (a : Nat) (v : Word) (m : Memory) (d : Slot) :
    d ∈ Memory.insert a v m ↔ d = (a, v) ∨ d ∈ m := by
  induction m with
  | nil => simp [Memory.insert]
  | cons c cs ih =>
    unfold Memory.insert
    split
    · simp
    · simp only [List.mem_cons, ih]; tauto

theorem Memory.wf_filter (p : Slot → Bool) (m : Memory) (h : Memory.wf m = true) : Memory.wf (m.filter p) = true := by
  induction m with
  | nil => rfl
  | cons c cs ih =>
    rw [Memory.wf_cons] at h
    rw [List.filter_cons]
    split
    · rw [Memory.wf_cons]
      exact ⟨h.1, h.2.1, fun d hd => h.2.2.1 d (List.mem_of_mem_filter hd), ih h.2.2.2⟩
    · exact ih h.2.2.2

theorem Memory.wf_insert (a : Nat) (v : Word) (m : Memory) (ha : a < dmemSlots) (hv : v ≠ unlistedSlot)
    (hm : ∀ c ∈ m, c.1 ≠ a) (h : Memory.wf m = true) : Memory.wf (Memory.insert a v m) = true := by
  induction m with
  | nil => simpa [Memory.insert, Memory.wf] using ⟨ha, hv⟩
  | cons c cs ih =>
    have hw := (Memory.wf_cons c cs).mp h
    have hne : c.1 ≠ a := hm c (by simp)
    unfold Memory.insert
    split
    · next hlt =>
      rw [Memory.wf_cons]
      refine ⟨ha, hv, fun d hd => ?_, h⟩
      rcases List.mem_cons.mp hd with rfl | hd
      · exact hlt
      · exact lt_trans hlt (hw.2.2.1 d hd)
    · next hge =>
      rw [Memory.wf_cons]
      refine ⟨hw.1, hw.2.1, fun d hd => ?_, ih (fun d hd => hm d (by simp [hd])) hw.2.2.2⟩
      rcases (Memory.mem_insert a v cs d).mp hd with rfl | hd
      · show c.1 < a
        omega
      · exact hw.2.2.1 d hd

/-- A write keeps the canonical form. -/
theorem Memory.wf_write (m : Memory) (a : Nat) (v : Word) (ha : a < dmemSlots) (h : Memory.wf m = true) :
    Memory.wf (Memory.write m a v) = true := by
  unfold Memory.write
  by_cases hv : v = unlistedSlot
  · simpa [hv] using Memory.wf_filter _ m h
  · simpa only [hv, if_false] using Memory.wf_insert a v _ ha hv (by simp) (Memory.wf_filter _ m h)

/-- A store of the machine keeps the canonical form. -/
theorem State.memWrite_wf (s : State) (a : SlotAddr) (v : Word) (h : Memory.wf s.dmem = true) :
    Memory.wf (s.memWrite a v).dmem = true :=
  Memory.wf_write s.dmem a.toNat v a.isLt h

/-- Data memory has the canonical form at reset. -/
theorem State.reset_wf : Memory.wf State.reset.dmem = true := rfl

end Sys2Proof.Machine
end

