-- ==== Sys2Proof/Laws/State.lean ====
section
/-!
SUPPORT. One lemma per field of `State` per update, and per reading of a register, a row or a slot, so that no proof
unfolds a record update.
-/

namespace Sys2Proof.Machine

/-! ### `setReg` -/

@[simp] theorem State.setReg_regs (s : State) (i : Nibble) (v : Word) : (s.setReg i v).regs = s.regs.set i.toNat v i.isLt := rfl
@[simp] theorem State.setReg_pc (s : State) (i : Nibble) (v : Word) : (s.setReg i v).pc = s.pc := rfl
@[simp] theorem State.setReg_flags (s : State) (i : Nibble) (v : Word) : (s.setReg i v).flags = s.flags := rfl
@[simp] theorem State.setReg_q (s : State) (i : Nibble) (v : Word) : (s.setReg i v).q = s.q := rfl
@[simp] theorem State.setReg_cim (s : State) (i : Nibble) (v : Word) : (s.setReg i v).cim = s.cim := rfl
@[simp] theorem State.setReg_dmem (s : State) (i : Nibble) (v : Word) : (s.setReg i v).dmem = s.dmem := rfl
@[simp] theorem State.setReg_run (s : State) (i : Nibble) (v : Word) : (s.setReg i v).run = s.run := rfl
@[simp] theorem State.setReg_prog (s : State) (i : Nibble) (v : Word) : (s.setReg i v).prog = s.prog := rfl
@[simp] theorem State.setReg_cfg (s : State) (i : Nibble) (v : Word) : (s.setReg i v).cfg = s.cfg := rfl
@[simp] theorem State.setReg_row (s : State) (i : Nibble) (v : Word) (j : Nibble) : (s.setReg i v).row j = s.row j := rfl
@[simp] theorem State.setReg_memRead (s : State) (i : Nibble) (v : Word) (j : SlotAddr) : (s.setReg i v).memRead j = s.memRead j := rfl

/-! ### `memWrite` -/

@[simp] theorem State.memWrite_regs (s : State) (a : SlotAddr) (v : Word) : (s.memWrite a v).regs = s.regs := rfl
@[simp] theorem State.memWrite_pc (s : State) (a : SlotAddr) (v : Word) : (s.memWrite a v).pc = s.pc := rfl
@[simp] theorem State.memWrite_flags (s : State) (a : SlotAddr) (v : Word) : (s.memWrite a v).flags = s.flags := rfl
@[simp] theorem State.memWrite_q (s : State) (a : SlotAddr) (v : Word) : (s.memWrite a v).q = s.q := rfl
@[simp] theorem State.memWrite_cim (s : State) (a : SlotAddr) (v : Word) : (s.memWrite a v).cim = s.cim := rfl
@[simp] theorem State.memWrite_dmem (s : State) (a : SlotAddr) (v : Word) : (s.memWrite a v).dmem = Memory.write s.dmem a.toNat v := rfl
@[simp] theorem State.memWrite_run (s : State) (a : SlotAddr) (v : Word) : (s.memWrite a v).run = s.run := rfl
@[simp] theorem State.memWrite_prog (s : State) (a : SlotAddr) (v : Word) : (s.memWrite a v).prog = s.prog := rfl
@[simp] theorem State.memWrite_cfg (s : State) (a : SlotAddr) (v : Word) : (s.memWrite a v).cfg = s.cfg := rfl
@[simp] theorem State.memWrite_reg (s : State) (a : SlotAddr) (v : Word) (j : Nibble) : (s.memWrite a v).reg j = s.reg j := rfl
@[simp] theorem State.memWrite_row (s : State) (a : SlotAddr) (v : Word) (j : Nibble) : (s.memWrite a v).row j = s.row j := rfl

/-! ### `setRow` -/

@[simp] theorem State.setRow_regs (s : State) (r : Nibble) (v : Word) : (s.setRow r v).regs = s.regs := rfl
@[simp] theorem State.setRow_pc (s : State) (r : Nibble) (v : Word) : (s.setRow r v).pc = s.pc := rfl
@[simp] theorem State.setRow_flags (s : State) (r : Nibble) (v : Word) : (s.setRow r v).flags = s.flags := rfl
@[simp] theorem State.setRow_q (s : State) (r : Nibble) (v : Word) : (s.setRow r v).q = s.q := rfl
@[simp] theorem State.setRow_cim (s : State) (r : Nibble) (v : Word) : (s.setRow r v).cim = s.cim.set r.toNat v r.isLt := rfl
@[simp] theorem State.setRow_dmem (s : State) (r : Nibble) (v : Word) : (s.setRow r v).dmem = s.dmem := rfl
@[simp] theorem State.setRow_run (s : State) (r : Nibble) (v : Word) : (s.setRow r v).run = s.run := rfl
@[simp] theorem State.setRow_prog (s : State) (r : Nibble) (v : Word) : (s.setRow r v).prog = s.prog := rfl
@[simp] theorem State.setRow_cfg (s : State) (r : Nibble) (v : Word) : (s.setRow r v).cfg = s.cfg := rfl
@[simp] theorem State.setRow_reg (s : State) (r : Nibble) (v : Word) (j : Nibble) : (s.setRow r v).reg j = s.reg j := rfl
@[simp] theorem State.setRow_memRead (s : State) (r : Nibble) (v : Word) (j : SlotAddr) : (s.setRow r v).memRead j = s.memRead j := rfl

/-! ### `setQ` -/

@[simp] theorem State.setQ_regs (s : State) (v : Nibble) : (s.setQ v).regs = s.regs := rfl
@[simp] theorem State.setQ_pc (s : State) (v : Nibble) : (s.setQ v).pc = s.pc := rfl
@[simp] theorem State.setQ_flags (s : State) (v : Nibble) : (s.setQ v).flags = s.flags := rfl
@[simp] theorem State.setQ_q (s : State) (v : Nibble) : (s.setQ v).q = v := rfl
@[simp] theorem State.setQ_cim (s : State) (v : Nibble) : (s.setQ v).cim = s.cim := rfl
@[simp] theorem State.setQ_dmem (s : State) (v : Nibble) : (s.setQ v).dmem = s.dmem := rfl
@[simp] theorem State.setQ_run (s : State) (v : Nibble) : (s.setQ v).run = s.run := rfl
@[simp] theorem State.setQ_prog (s : State) (v : Nibble) : (s.setQ v).prog = s.prog := rfl
@[simp] theorem State.setQ_cfg (s : State) (v : Nibble) : (s.setQ v).cfg = s.cfg := rfl
@[simp] theorem State.setQ_reg (s : State) (v : Nibble) (j : Nibble) : (s.setQ v).reg j = s.reg j := rfl
@[simp] theorem State.setQ_row (s : State) (v : Nibble) (j : Nibble) : (s.setQ v).row j = s.row j := rfl
@[simp] theorem State.setQ_memRead (s : State) (v : Nibble) (j : SlotAddr) : (s.setQ v).memRead j = s.memRead j := rfl

/-! ### `jump` -/

@[simp] theorem State.jump_regs (s : State) (t : Int) : (s.jump t).regs = s.regs := rfl
@[simp] theorem State.jump_pc (s : State) (t : Int) : (s.jump t).pc = t := rfl
@[simp] theorem State.jump_flags (s : State) (t : Int) : (s.jump t).flags = s.flags := rfl
@[simp] theorem State.jump_q (s : State) (t : Int) : (s.jump t).q = s.q := rfl
@[simp] theorem State.jump_cim (s : State) (t : Int) : (s.jump t).cim = s.cim := rfl
@[simp] theorem State.jump_dmem (s : State) (t : Int) : (s.jump t).dmem = s.dmem := rfl
@[simp] theorem State.jump_run (s : State) (t : Int) : (s.jump t).run = s.run := rfl
@[simp] theorem State.jump_prog (s : State) (t : Int) : (s.jump t).prog = s.prog := rfl
@[simp] theorem State.jump_cfg (s : State) (t : Int) : (s.jump t).cfg = s.cfg := rfl
@[simp] theorem State.jump_reg (s : State) (t : Int) (j : Nibble) : (s.jump t).reg j = s.reg j := rfl
@[simp] theorem State.jump_row (s : State) (t : Int) (j : Nibble) : (s.jump t).row j = s.row j := rfl
@[simp] theorem State.jump_memRead (s : State) (t : Int) (j : SlotAddr) : (s.jump t).memRead j = s.memRead j := rfl

/-! ### `advance` -/

@[simp] theorem State.advance_regs (s : State) : (s.advance).regs = s.regs := rfl
@[simp] theorem State.advance_pc (s : State) : (s.advance).pc = s.pc + 1 := rfl
@[simp] theorem State.advance_flags (s : State) : (s.advance).flags = s.flags := rfl
@[simp] theorem State.advance_q (s : State) : (s.advance).q = s.q := rfl
@[simp] theorem State.advance_cim (s : State) : (s.advance).cim = s.cim := rfl
@[simp] theorem State.advance_dmem (s : State) : (s.advance).dmem = s.dmem := rfl
@[simp] theorem State.advance_run (s : State) : (s.advance).run = s.run := rfl
@[simp] theorem State.advance_prog (s : State) : (s.advance).prog = s.prog := rfl
@[simp] theorem State.advance_cfg (s : State) : (s.advance).cfg = s.cfg := rfl
@[simp] theorem State.advance_reg (s : State) (j : Nibble) : (s.advance).reg j = s.reg j := rfl
@[simp] theorem State.advance_row (s : State) (j : Nibble) : (s.advance).row j = s.row j := rfl
@[simp] theorem State.advance_memRead (s : State) (j : SlotAddr) : (s.advance).memRead j = s.memRead j := rfl

/-! ### `halt` -/

@[simp] theorem State.halt_regs (s : State) (r : HaltReason) : (s.halt r).regs = s.regs := rfl
@[simp] theorem State.halt_pc (s : State) (r : HaltReason) : (s.halt r).pc = s.pc := rfl
@[simp] theorem State.halt_flags (s : State) (r : HaltReason) : (s.halt r).flags = s.flags := rfl
@[simp] theorem State.halt_q (s : State) (r : HaltReason) : (s.halt r).q = s.q := rfl
@[simp] theorem State.halt_cim (s : State) (r : HaltReason) : (s.halt r).cim = s.cim := rfl
@[simp] theorem State.halt_dmem (s : State) (r : HaltReason) : (s.halt r).dmem = s.dmem := rfl
@[simp] theorem State.halt_run (s : State) (r : HaltReason) : (s.halt r).run = .halted r := rfl
@[simp] theorem State.halt_prog (s : State) (r : HaltReason) : (s.halt r).prog = s.prog := rfl
@[simp] theorem State.halt_cfg (s : State) (r : HaltReason) : (s.halt r).cfg = s.cfg := rfl
@[simp] theorem State.halt_reg (s : State) (r : HaltReason) (j : Nibble) : (s.halt r).reg j = s.reg j := rfl
@[simp] theorem State.halt_row (s : State) (r : HaltReason) (j : Nibble) : (s.halt r).row j = s.row j := rfl
@[simp] theorem State.halt_memRead (s : State) (r : HaltReason) (j : SlotAddr) : (s.halt r).memRead j = s.memRead j := rfl

/-! ### `raise` -/

@[simp] theorem State.raise_regs (s : State) (k : FaultKind) : (s.raise k).regs = s.regs := rfl
@[simp] theorem State.raise_pc (s : State) (k : FaultKind) : (s.raise k).pc = s.pc := rfl
@[simp] theorem State.raise_flags (s : State) (k : FaultKind) : (s.raise k).flags = s.flags := rfl
@[simp] theorem State.raise_q (s : State) (k : FaultKind) : (s.raise k).q = s.q := rfl
@[simp] theorem State.raise_cim (s : State) (k : FaultKind) : (s.raise k).cim = s.cim := rfl
@[simp] theorem State.raise_dmem (s : State) (k : FaultKind) : (s.raise k).dmem = s.dmem := rfl
@[simp] theorem State.raise_run (s : State) (k : FaultKind) : (s.raise k).run = .faulted k := rfl
@[simp] theorem State.raise_prog (s : State) (k : FaultKind) : (s.raise k).prog = s.prog := rfl
@[simp] theorem State.raise_cfg (s : State) (k : FaultKind) : (s.raise k).cfg = s.cfg := rfl
@[simp] theorem State.raise_reg (s : State) (k : FaultKind) (j : Nibble) : (s.raise k).reg j = s.reg j := rfl
@[simp] theorem State.raise_row (s : State) (k : FaultKind) (j : Nibble) : (s.raise k).row j = s.row j := rfl
@[simp] theorem State.raise_memRead (s : State) (k : FaultKind) (j : SlotAddr) : (s.raise k).memRead j = s.memRead j := rfl

/-! ### `putZN` -/

@[simp] theorem State.putZN_regs (s : State) (r : Word) : (s.putZN r).regs = s.regs := rfl
@[simp] theorem State.putZN_pc (s : State) (r : Word) : (s.putZN r).pc = s.pc := rfl
@[simp] theorem State.putZN_flags (s : State) (r : Word) : (s.putZN r).flags = { s.flags with z := r == 0, n := r.msb } := rfl
@[simp] theorem State.putZN_q (s : State) (r : Word) : (s.putZN r).q = s.q := rfl
@[simp] theorem State.putZN_cim (s : State) (r : Word) : (s.putZN r).cim = s.cim := rfl
@[simp] theorem State.putZN_dmem (s : State) (r : Word) : (s.putZN r).dmem = s.dmem := rfl
@[simp] theorem State.putZN_run (s : State) (r : Word) : (s.putZN r).run = s.run := rfl
@[simp] theorem State.putZN_prog (s : State) (r : Word) : (s.putZN r).prog = s.prog := rfl
@[simp] theorem State.putZN_cfg (s : State) (r : Word) : (s.putZN r).cfg = s.cfg := rfl
@[simp] theorem State.putZN_reg (s : State) (r : Word) (j : Nibble) : (s.putZN r).reg j = s.reg j := rfl
@[simp] theorem State.putZN_row (s : State) (r : Word) (j : Nibble) : (s.putZN r).row j = s.row j := rfl
@[simp] theorem State.putZN_memRead (s : State) (r : Word) (j : SlotAddr) : (s.putZN r).memRead j = s.memRead j := rfl

/-! ### `putF` -/

@[simp] theorem State.putF_regs (s : State) (b : Bool) : (s.putF b).regs = s.regs := rfl
@[simp] theorem State.putF_pc (s : State) (b : Bool) : (s.putF b).pc = s.pc := rfl
@[simp] theorem State.putF_flags (s : State) (b : Bool) : (s.putF b).flags = { s.flags with f := b } := rfl
@[simp] theorem State.putF_q (s : State) (b : Bool) : (s.putF b).q = s.q := rfl
@[simp] theorem State.putF_cim (s : State) (b : Bool) : (s.putF b).cim = s.cim := rfl
@[simp] theorem State.putF_dmem (s : State) (b : Bool) : (s.putF b).dmem = s.dmem := rfl
@[simp] theorem State.putF_run (s : State) (b : Bool) : (s.putF b).run = s.run := rfl
@[simp] theorem State.putF_prog (s : State) (b : Bool) : (s.putF b).prog = s.prog := rfl
@[simp] theorem State.putF_cfg (s : State) (b : Bool) : (s.putF b).cfg = s.cfg := rfl
@[simp] theorem State.putF_reg (s : State) (b : Bool) (j : Nibble) : (s.putF b).reg j = s.reg j := rfl
@[simp] theorem State.putF_row (s : State) (b : Bool) (j : Nibble) : (s.putF b).row j = s.row j := rfl
@[simp] theorem State.putF_memRead (s : State) (b : Bool) (j : SlotAddr) : (s.putF b).memRead j = s.memRead j := rfl

/-! ### `withProgram` -/

@[simp] theorem State.withProgram_regs (s : State) (p : List Word) : (s.withProgram p).regs = s.regs := rfl
@[simp] theorem State.withProgram_pc (s : State) (p : List Word) : (s.withProgram p).pc = s.pc := rfl
@[simp] theorem State.withProgram_flags (s : State) (p : List Word) : (s.withProgram p).flags = s.flags := rfl
@[simp] theorem State.withProgram_q (s : State) (p : List Word) : (s.withProgram p).q = s.q := rfl
@[simp] theorem State.withProgram_cim (s : State) (p : List Word) : (s.withProgram p).cim = s.cim := rfl
@[simp] theorem State.withProgram_dmem (s : State) (p : List Word) : (s.withProgram p).dmem = s.dmem := rfl
@[simp] theorem State.withProgram_run (s : State) (p : List Word) : (s.withProgram p).run = s.run := rfl
@[simp] theorem State.withProgram_prog (s : State) (p : List Word) : (s.withProgram p).prog = p := rfl
@[simp] theorem State.withProgram_cfg (s : State) (p : List Word) : (s.withProgram p).cfg = s.cfg := rfl
@[simp] theorem State.withProgram_reg (s : State) (p : List Word) (j : Nibble) : (s.withProgram p).reg j = s.reg j := rfl
@[simp] theorem State.withProgram_row (s : State) (p : List Word) (j : Nibble) : (s.withProgram p).row j = s.row j := rfl
@[simp] theorem State.withProgram_memRead (s : State) (p : List Word) (j : SlotAddr) : (s.withProgram p).memRead j = s.memRead j := rfl

/-! ### `restart` -/

@[simp] theorem State.restart_regs (s : State) : s.restart.regs = State.reset.regs := rfl
@[simp] theorem State.restart_pc (s : State) : s.restart.pc = 0 := rfl
@[simp] theorem State.restart_flags (s : State) : s.restart.flags = State.reset.flags := rfl
@[simp] theorem State.restart_q (s : State) : s.restart.q = 0 := rfl
@[simp] theorem State.restart_cim (s : State) : s.restart.cim = State.reset.cim := rfl
@[simp] theorem State.restart_dmem (s : State) : s.restart.dmem = [] := rfl
@[simp] theorem State.restart_run (s : State) : s.restart.run = .running := rfl
@[simp] theorem State.restart_prog (s : State) : s.restart.prog = s.prog := rfl
@[simp] theorem State.restart_cfg (s : State) : s.restart.cfg = s.cfg := rfl
@[simp] theorem State.restart_reg (s : State) (j : Nibble) : s.restart.reg j = State.reset.reg j := rfl
@[simp] theorem State.restart_row (s : State) (j : Nibble) : s.restart.row j = State.reset.row j := rfl
@[simp] theorem State.restart_memRead (s : State) (j : SlotAddr) : s.restart.memRead j = State.reset.memRead j := rfl
theorem State.reset_restart : State.reset.restart = State.reset := rfl

/-! ### Reading what was written -/

theorem State.setReg_reg (s : State) (i j : Nibble) (v : Word) : (s.setReg i v).reg j = if j = i then v else s.reg j := by
  unfold State.reg State.setReg
  rw [Vector.getElem_set]
  simp only [BitVec.toNat_inj]
  by_cases h : i = j
  · simp [h]
  · rw [if_neg h, if_neg (Ne.symm h)]

@[simp] theorem State.setReg_reg_self (s : State) (i : Nibble) (v : Word) : (s.setReg i v).reg i = v := by
  simp [State.setReg_reg]

theorem State.setReg_reg_of_ne (s : State) {i j : Nibble} (v : Word) (h : j ≠ i) : (s.setReg i v).reg j = s.reg j := by
  simp [State.setReg_reg, h]

theorem State.setRow_row (s : State) (i j : Nibble) (v : Word) : (s.setRow i v).row j = if j = i then v else s.row j := by
  unfold State.row State.setRow
  rw [Vector.getElem_set]
  simp only [BitVec.toNat_inj]
  by_cases h : i = j
  · simp [h]
  · rw [if_neg h, if_neg (Ne.symm h)]

@[simp] theorem State.setRow_row_self (s : State) (i : Nibble) (v : Word) : (s.setRow i v).row i = v := by
  simp [State.setRow_row]

/-! ### The reset state -/

@[simp] theorem State.reset_reg (i : Nibble) : State.reset.reg i = 0 := by
  simp [State.reg, State.reset]

@[simp] theorem State.reset_row (r : Nibble) : State.reset.row r = 0 := by
  simp [State.row, State.reset]

@[simp] theorem State.reset_memRead (a : SlotAddr) : State.reset.memRead a = 0 := rfl

end Sys2Proof.Machine
end

