-- ==== Sys2Proof/Laws/Ops.lean ====
section
/-!
SUPPORT. For each shared operation, one lemma that says once what it does: narrowing, operand forms, flag computations,
the shared ends of the instructions, fetching, and the inversion of a step.
-/

namespace Sys2Proof.Machine

/-! ### Narrowing, signs, immediates -/

theorem narrow16_toInt (n : Int) : (narrow16 n).toInt = n.bmod 65536 := by
  simp [narrow16, BitVec.toInt_ofInt]

theorem narrow16_toNat (n : Int) : ((narrow16 n).toNat : Int) = n % 65536 := by
  simp only [narrow16, BitVec.toNat_ofInt]
  omega

theorem msb_iff_neg (v : Word) : v.msb = true ↔ v.toInt < 0 := by
  rw [BitVec.msb_eq_toInt]; simp

theorem word_toInt_bounds (w : Word) : -32768 ≤ w.toInt ∧ w.toInt ≤ 32767 := by
  have := w.isLt
  have := BitVec.toInt_eq_toNat_cond w
  split at this <;> omega

theorem immInt_bounds (p : ImmExt) (b : Byte) : -128 ≤ immInt p b ∧ immInt p b ≤ 255 := by
  have := b.isLt
  have := BitVec.toInt_eq_toNat_cond b
  cases p <;> simp only [immInt, sext8, zext8] <;> split at this <;> omega

/-- The sign-and-magnitude amount: when it is negative, and its magnitude. -/
theorem signMagInt_spec (s : Bool) (mag : Nibble) :
    (signMagInt s mag < 0 ↔ s = true ∧ mag ≠ 0) ∧ (signMagInt s mag).natAbs = mag.toNat := by
  cases s
  · simp [signMagInt]
  · refine ⟨⟨?_, ?_⟩, by simp [signMagInt]⟩
    · rintro h
      refine ⟨rfl, ?_⟩
      rintro rfl
      simp [signMagInt] at h
    · rintro ⟨-, h⟩
      have : mag.toNat ≠ 0 := fun h' => h (BitVec.eq_of_toNat_eq (by simpa using h'))
      simp only [signMagInt, if_true]
      omega

/-! ### Addresses, rows, shifts -/

theorem State.ea_toNat (s : State) (i : Nibble) : (s.ea i).toNat = (s.reg i).toNat % 512 := by
  simp [State.ea, BitVec.extractLsb'_toNat]

theorem State.maskedRow_toNat (s : State) (i : Nibble) : (s.maskedRow i).toNat = (s.reg i).toNat % 16 := by
  simp [State.maskedRow, BitVec.extractLsb'_toNat]

theorem cmptRow_toNat (ra : Nibble) (k : Fin 4) : (cmptRow ra k).toNat = ra.toNat % 4 + 4 * k.val := by
  revert ra k; decide

theorem rowOfInt_eq_none (n : Int) : rowOfInt n = none ↔ n < 0 ∨ 15 < n := by
  unfold rowOfInt; split <;> simp <;> omega

theorem rowOfInt_eq_some (n : Int) (r : Nibble) : rowOfInt n = some r ↔ n = (r.toNat : Int) := by
  have := r.isLt
  unfold rowOfInt
  split
  · next h =>
    simp only [Option.some.injEq]
    constructor
    · rintro rfl
      simp only [BitVec.toNat_ofInt]
      omega
    · rintro rfl
      exact BitVec.eq_of_toNat_eq (by simp)
  · simp; omega

theorem lshAmount_spec (v : Word) : lshAmount v = if v.toInt < 0 then v.toNat % 16 else v.toNat := by
  unfold lshAmount sint16
  have := BitVec.toInt_eq_toNat_cond v
  have := v.isLt
  split <;> [rfl; (split at * <;> omega)]

theorem shiftLeft_toNat (v : Word) (n : Nat) : (shiftLeft v n).toNat = v.toNat * 2 ^ n % 65536 := by
  have h : ((shiftLeft v n).toNat : Int) = v.toInt * 2 ^ n % 65536 := narrow16_toNat _
  have h2 : v.toInt % 65536 = (v.toNat : Int) % 65536 := by
    have := BitVec.toInt_eq_toNat_cond v
    split at this <;> omega
  have h3 : v.toInt * 2 ^ n % 65536 = (v.toNat : Int) * 2 ^ n % 65536 := by
    rw [Int.mul_emod, h2, ← Int.mul_emod]
  rw [h3] at h
  exact_mod_cast h

/-! ### Flags and the shared ends of instructions -/

theorem overflowAdd_iff (a b : Int) (r : Word) :
    overflowAdd a b r = true ↔ ((a < 0 ↔ b < 0) ∧ ¬(r.toInt < 0 ↔ a < 0)) := by
  by_cases h1 : a < 0 <;> by_cases h2 : b < 0 <;> by_cases h3 : r.toInt < 0 <;>
    simp [overflowAdd, neg, sint16, h1, h2, h3]

theorem overflowSub_iff (a b : Int) (r : Word) :
    overflowSub a b r = true ↔ (¬(a < 0 ↔ b < 0) ∧ ¬(r.toInt < 0 ↔ a < 0)) := by
  by_cases h1 : a < 0 <;> by_cases h2 : b < 0 <;> by_cases h3 : r.toInt < 0 <;>
    simp [overflowSub, neg, sint16, h1, h2, h3]

theorem flagsOf_of {v : Word} {t : State} (hz : t.flags.z = (v == 0)) (hn : t.flags.n = v.msb) : FlagsOf v t := by
  simp [FlagsOf, hz, hn, msb_iff_neg]

/-- A register write is a change of that register only. -/
theorem State.setReg_registerOnly (s : State) (i : Nibble) (v : Word) : RegisterOnly [i] s (s.setReg i v) :=
  ⟨fun _ hj => State.setReg_reg_of_ne s v (by simpa using hj), fun _ => rfl, fun _ => rfl, rfl, rfl, rfl, rfl, rfl, rfl⟩

theorem State.finishAdd_spec (s : State) (ra : Nibble) (a b : Int) :
    (s.finishAdd ra a b).reg ra = narrow16 (a + b) ∧ FlagsOf (narrow16 (a + b)) (s.finishAdd ra a b) ∧
    (s.finishAdd ra a b).flags.f = overflowAdd a b (narrow16 (a + b)) ∧ (s.finishAdd ra a b).pc = s.pc + 1 ∧
    RegisterOnly [ra] s (s.finishAdd ra a b) :=
  ⟨State.setReg_reg_self s ra _, flagsOf_of rfl rfl, rfl, rfl, State.setReg_registerOnly s ra _⟩

theorem State.finishSub_spec (s : State) (ra : Nibble) (a b : Int) :
    (s.finishSub ra a b).reg ra = narrow16 (a - b) ∧ FlagsOf (narrow16 (a - b)) (s.finishSub ra a b) ∧
    (s.finishSub ra a b).flags.f = overflowSub a b (narrow16 (a - b)) ∧ (s.finishSub ra a b).pc = s.pc + 1 ∧
    RegisterOnly [ra] s (s.finishSub ra a b) :=
  ⟨State.setReg_reg_self s ra _, flagsOf_of rfl rfl, rfl, rfl, State.setReg_registerOnly s ra _⟩

theorem State.finishCmp_spec (s : State) (a b : Int) :
    FlagsOf (narrow16 (a - b)) (s.finishCmp a b) ∧ (s.finishCmp a b).flags.f = overflowSub a b (narrow16 (a - b)) ∧
    (s.finishCmp a b).pc = s.pc + 1 ∧ RegisterOnly [] s (s.finishCmp a b) :=
  ⟨flagsOf_of rfl rfl, rfl, rfl, fun _ _ => rfl, fun _ => rfl, fun _ => rfl, rfl, rfl, rfl, rfl, rfl, rfl⟩

theorem State.finishLogic_spec (s : State) (ra : Nibble) (r : Word) :
    (s.finishLogic ra r).reg ra = r ∧ FlagsOf r (s.finishLogic ra r) ∧ (s.finishLogic ra r).flags.f = s.flags.f ∧
    (s.finishLogic ra r).pc = s.pc + 1 ∧ RegisterOnly [ra] s (s.finishLogic ra r) :=
  ⟨State.setReg_reg_self s ra _, flagsOf_of rfl rfl, rfl, rfl, State.setReg_registerOnly s ra _⟩

theorem State.finishMove_spec (s : State) (ra : Nibble) (r : Word) :
    (s.finishMove ra r).reg ra = r ∧ FlagsKept s (s.finishMove ra r) ∧ (s.finishMove ra r).pc = s.pc + 1 ∧
    RegisterOnly [ra] s (s.finishMove ra r) :=
  ⟨State.setReg_reg_self s ra _, rfl, rfl, State.setReg_registerOnly s ra _⟩

/-- A store of a word at an address: that slot, `pc`, nothing else. -/
theorem State.store_spec (s : State) (a : SlotAddr) (v : Word) :
    (s.memWrite a v).advance.memRead a = v ∧ MemKeptBut a s (s.memWrite a v).advance ∧
    RegsKeptBut [] s (s.memWrite a v).advance ∧ RowsKept s (s.memWrite a v).advance ∧
    FlagsKept s (s.memWrite a v).advance ∧ FixedKept s (s.memWrite a v).advance := by
  refine ⟨?_, ?_, fun _ _ => rfl, fun _ => rfl, rfl, rfl, rfl, rfl, rfl, rfl⟩
  · simp [State.memWrite_memRead]
  · intro b hb
    simp [State.memWrite_memRead, hb]

/-- A write of a CIM row: that row, `pc`, nothing else. -/
theorem State.rowWrite_spec (s : State) (r : Nibble) (v : Word) :
    (s.setRow r v).advance.row r = v ∧ RowsKeptBut r s (s.setRow r v).advance ∧
    RegsKeptBut [] s (s.setRow r v).advance ∧ MemKept s (s.setRow r v).advance ∧
    FlagsKept s (s.setRow r v).advance ∧ FixedKept s (s.setRow r v).advance := by
  refine ⟨by simp, ?_, fun _ _ => rfl, fun _ => rfl, rfl, rfl, rfl, rfl, rfl, rfl⟩
  intro b hb
  simp [State.setRow_row, hb]

/-! ### The program and the step -/

theorem setWord_getElem (k : Nat) (w : Word) (xs : List Word) : (setWord k w xs)[k]? = some w := by
  induction k generalizing xs with
  | zero => cases xs <;> rfl
  | succ k ih => cases xs <;> simpa [setWord] using ih _

theorem setWord_length (k : Nat) (w : Word) (xs : List Word) : (setWord k w xs).length = max (k + 1) xs.length := by
  induction k generalizing xs with
  | zero => cases xs <;> simp [setWord]
  | succ k ih => cases xs <;> simp [setWord, ih]

theorem State.fetchIndex_lt (s : State) : s.fetchIndex < maxProgLen := by
  unfold State.fetchIndex maxProgLen
  split <;> omega

theorem State.fetch_eq_none (s : State) : s.fetch = none ↔ s.pc < 0 ∨ (s.prog.length : Int) ≤ s.pc := by
  unfold State.fetch; split <;> simp <;> omega

theorem State.fetch_eq_some (s : State) (w : Word) : s.fetch = some w ↔ 0 ≤ s.pc ∧ s.prog[s.pc.toNat]? = some w := by
  unfold State.fetch
  split
  · next h => simp [show ¬ 0 ≤ s.pc by omega]
  · next h => simp [show 0 ≤ s.pc by omega]

/-- The state with a placed word runs, and its next fetch is that word. -/
theorem State.placeWord_spec (s : State) (w : Word) :
    (s.placeWord w).run = .running ∧ (s.placeWord w).fetch = some w := by
  simp [State.fetch, State.placeWord, setWord_getElem]

theorem decodeWord_eq_instr {reg : Registry} {strict : Bool} {w : Word} {i : Instr} :
    decodeInstr reg strict w = some i ↔ decodeWord reg strict w = .instr i := by
  unfold decodeInstr
  constructor
  · intro h
    split at h
    · next h' => rw [h']; cases h; rfl
    · cases h
  · intro h
    rw [h]

/-- The decoder's refusal carries the word it was given. -/
theorem decode_unrecognized {reg : Registry} {strict : Bool} {w w' : Word} (h : decode reg strict w = .unrecognized w') :
    w' = w := by
  unfold decode at h
  repeat' split at h
  all_goals cases h
  rfl

/-- Everything a step that answers a next state can be. -/
theorem step_next_cases {s t : State} (h : step s = .next t) :
    (s.run ≠ .running ∧ t = s) ∨
    (s.run = .running ∧ s.fetch = none ∧ t = s.halt .programEnd) ∨
    (∃ w, s.run = .running ∧ s.fetch = some w ∧
      decode s.cfg.registry s.cfg.strictZeroBits w = .unrecognized w ∧ t = s.advance) ∨
    (∃ i, s.Executes i ∧ exec i s = .next t) := by
  unfold step at h
  split at h
  · next hr =>
    split at h
    · next hf => cases h; exact .inr (.inl ⟨hr, hf, rfl⟩)
    · next w hf =>
      split at h
      · next i hd => exact .inr (.inr (.inr ⟨i, ⟨hr, w, hf, decodeWord_eq_instr.mpr hd⟩, h⟩))
      · next w' hd =>
        cases h
        refine .inr (.inr (.inl ⟨w, hr, hf, ?_, rfl⟩))
        unfold decodeWord at hd
        split at hd
        · next hx => rw [hx, decode_unrecognized hx]
        · split at hd <;> cases hd
      · cases h
  · next hr => cases h; exact .inl ⟨hr, rfl⟩

end Sys2Proof.Machine
end

