-- ==== Sys2Proof/Laws/PerInstr.lean ====
section
/-!
SUPPORT. Statements about every instruction, one lemma per constructor: the word written out in `encode` is the word the
packer makes from the instruction's row of `REG_DEFAULT` and its fields.
-/

namespace Sys2Proof.Laws

/-- The two encoders of an instruction agree (40_encoder.md R81; 30_encoding.md R60). For EXCP with a vector
that is not 0 this rests on the spec's decision D12 (log 26), for the zeros of SETQ on its decision D8 (log 39). -/
def EncodeIsPack.Statement (i : Instr) : Prop := pack i.mnemonic.descriptor i.fields = .ok (encode i)

theorem EncodeIsPack.add (ra rb : Nibble) : EncodeIsPack.Statement (.add ra rb) := rfl

theorem EncodeIsPack.sub (ra rb : Nibble) : EncodeIsPack.Statement (.sub ra rb) := rfl

theorem EncodeIsPack.cmp (ra rb : Nibble) : EncodeIsPack.Statement (.cmp ra rb) := rfl

theorem EncodeIsPack.and (ra rb : Nibble) : EncodeIsPack.Statement (.and ra rb) := rfl

theorem EncodeIsPack.or (ra rb : Nibble) : EncodeIsPack.Statement (.or ra rb) := rfl

theorem EncodeIsPack.xor (ra rb : Nibble) : EncodeIsPack.Statement (.xor ra rb) := rfl

theorem EncodeIsPack.mov (ra rb : Nibble) : EncodeIsPack.Statement (.mov ra rb) := rfl

theorem EncodeIsPack.addi (ra : Nibble) (imm8 : Byte) : EncodeIsPack.Statement (.addi ra imm8) := congrArg Except.ok (nibbles_byte _ _ _)

theorem EncodeIsPack.subi (ra : Nibble) (imm8 : Byte) : EncodeIsPack.Statement (.subi ra imm8) := congrArg Except.ok (nibbles_byte _ _ _)

theorem EncodeIsPack.cmpi (ra : Nibble) (imm8 : Byte) : EncodeIsPack.Statement (.cmpi ra imm8) := congrArg Except.ok (nibbles_byte _ _ _)

theorem EncodeIsPack.andi (ra : Nibble) (imm8 : Byte) : EncodeIsPack.Statement (.andi ra imm8) := congrArg Except.ok (nibbles_byte _ _ _)

theorem EncodeIsPack.ori (ra : Nibble) (imm8 : Byte) : EncodeIsPack.Statement (.ori ra imm8) := congrArg Except.ok (nibbles_byte _ _ _)

theorem EncodeIsPack.xori (ra : Nibble) (imm8 : Byte) : EncodeIsPack.Statement (.xori ra imm8) := congrArg Except.ok (nibbles_byte _ _ _)

theorem EncodeIsPack.movi (ra : Nibble) (imm8 : Byte) : EncodeIsPack.Statement (.movi ra imm8) := congrArg Except.ok (nibbles_byte _ _ _)

theorem EncodeIsPack.lsh (ra rb : Nibble) : EncodeIsPack.Statement (.lsh ra rb) := rfl

theorem EncodeIsPack.lshi (ra : Nibble) (s : Bool) (mag : Nibble) : EncodeIsPack.Statement (.lshi ra s mag) :=
  congrArg (fun x => Except.ok (nibbles 0x8 ra x mag)) (show 0#3 ++ BitVec.ofBool s = (if s then 1 else 0 : BitVec 4) by cases s <;> decide)

theorem EncodeIsPack.lui (ra : Nibble) (imm8 : Byte) : EncodeIsPack.Statement (.lui ra imm8) := congrArg Except.ok (nibbles_byte _ _ _)

theorem EncodeIsPack.load (ra rb : Nibble) : EncodeIsPack.Statement (.load ra rb) := rfl

theorem EncodeIsPack.stor (ra rb : Nibble) : EncodeIsPack.Statement (.stor ra rb) := rfl

theorem EncodeIsPack.bcond (k : Cond) (disp : Byte) : EncodeIsPack.Statement (.bcond k disp) := congrArg Except.ok (nibbles_byte _ _ _)

theorem EncodeIsPack.jcond (k : Cond) (rb : Nibble) : EncodeIsPack.Statement (.jcond k rb) := rfl

theorem EncodeIsPack.jal (ra rb : Nibble) : EncodeIsPack.Statement (.jal ra rb) := rfl

theorem EncodeIsPack.wait : EncodeIsPack.Statement (.wait) := rfl

theorem EncodeIsPack.di : EncodeIsPack.Statement (.di) := rfl

theorem EncodeIsPack.ei : EncodeIsPack.Statement (.ei) := rfl

theorem EncodeIsPack.excp (vec : Nibble) : EncodeIsPack.Statement (.excp vec) := congrArg Except.ok rfl

theorem EncodeIsPack.stcr (ra rb : Nibble) : EncodeIsPack.Statement (.stcr ra rb) := rfl

theorem EncodeIsPack.stcm (ra rb : Nibble) : EncodeIsPack.Statement (.stcm ra rb) := rfl

theorem EncodeIsPack.ldcr (ra rb : Nibble) : EncodeIsPack.Statement (.ldcr ra rb) := rfl

theorem EncodeIsPack.setq (imm4 : Nibble) : EncodeIsPack.Statement (.setq imm4) := rfl

theorem EncodeIsPack.cmpt (ra rb : Nibble) : EncodeIsPack.Statement (.cmpt ra rb) := rfl

end Sys2Proof.Laws
end

