-- ==== Sys2Proof/Tests/Slice0.lean ====
section
/-!
SUPPORT. The writer's own tests: ill-formed terms that the checks refuse, words written out from the encoding tables, one
or two steps per instruction, and a concrete input for the hypotheses of every statement. Expected values are those of
95_test_vectors.md (its part or table is named) or worked by hand from the rule named.
-/

namespace Sys2Proof.Tests

open Sys2Proof.Machine

/-! ### Helpers -/

/-- The reset state with some registers, flags `Z N F` and `pc` set. -/
def start (regs : List (Nibble × Word)) (z : Bool := false) (n : Bool := false) (f : Bool := false) (pc : Int := 0) : State :=
  regs.foldl (fun s e => s.setReg e.1 e.2) { State.reset with pc := pc, flags := { z := z, n := n, f := f, c := false, l := false } }

/-- What a step shows of its next state; none for a refusal. -/
def shows {α : Type} (view : State → α) : Result → Option α
  | .next t => some (view t)
  | .refused _ => none

/-- What a step is refused with; none for a next state. -/
def refusal : Result → Option Refusal
  | .next _ => none
  | .refused r => some r

/-- The error of an encoding, if it fails. -/
def errorOf {α : Type} : Except EncError α → Option EncError
  | .ok _ => none
  | .error e => some e

/-- One step on a state whose next fetched word is `w`. -/
def run1 (w : Nat) (s : State) : Result := step (s.withFetchWord 16 w)

/-- `Z`, `N` and `F`. -/
def znf (s : State) : Bool × Bool × Bool := (s.flags.z, s.flags.n, s.flags.f)

/-- The source text of 95_test_vectors.md table E4, text A, without its comments. -/
def sumText : Text := "MOVI R1, 0\nMOVI R2, 5\nloop: ADD R1, R2\nSUBI R2, 1\nBCOND NE, LOOP\nWAIT\n".toList

/-! ### Well-formedness: each check refuses an ill-formed term -/

theorem test_wf1_refuses_a_mnemonic_twice : wf1 [⟨"ADD".toList, .rr 0 5⟩, ⟨"add".toList, .rr 0 6⟩] = false := by decide
theorem test_wf2_refuses_a_fix_word_under_a_fixv : wf2 [⟨"A".toList, .fixv 0x40B⟩, ⟨"B".toList, .fix 0x40B7⟩] = false := by decide
theorem test_wf2_refuses_a_fix_word_twice : wf2 [⟨"A".toList, .fix 0⟩, ⟨"B".toList, .fix 0⟩] = false := by decide
theorem test_wf3_refuses_a_triple_twice : wf3 [⟨"A".toList, .rr 0 5⟩, ⟨"B".toList, .rr 0 5⟩] = false := by decide
theorem test_wf4_refuses_an_unknown_tag : wf4 [⟨"A".toList, .other "XYZ".toList⟩] = false := by decide
theorem test_wf5_refuses_an_overlap_of_rr_and_rs : wf5 true [⟨"A".toList, .rr 0 5⟩, ⟨"B".toList, .rs 0 5⟩] = false := by decide
theorem test_wf5_accepts_lsh_and_lshi_only_under_strict_zero_bits :
    wf5 true [⟨"LSH".toList, .rr 8 4⟩, ⟨"LSHI".toList, .ri4 8⟩] = true ∧
    wf5 false [⟨"LSH".toList, .rr 8 4⟩, ⟨"LSHI".toList, .ri4 8⟩] = false := by decide
theorem test_instr_wf_refuses_jal_of_one_register : (Instr.jal 3 3).wf = false ∧ (Instr.jal 3 4).wf = true := by decide
theorem test_programWf_refuses_a_program_too_long :
    programWf (List.replicate 32769 0) = false ∧ programWf (List.replicate 32768 0) = true := by
  simp only [programWf, List.length_replicate]
  decide
theorem test_memory_wf_refuses :
    Memory.wf [(1, 5), (1, 6)] = false ∧ Memory.wf [(2, 5), (1, 6)] = false ∧ Memory.wf [(512, 5)] = false ∧
    Memory.wf [(3, 0)] = false ∧ Memory.wf [(0, 1), (511, 2)] = true := by decide

/-! ### Decoding: every constructor, from a word written out from 30_encoding.md R46 and R60 (95_test_vectors.md E1) -/

theorem test_decode_rr_alu :
    decodeTableWord 16 0b0000000101010010 = some (.add 1 2) ∧ decodeTableWord 16 0b0000001110010100 = some (.sub 3 4) ∧
    decodeTableWord 16 0b0000111110110000 = some (.cmp 15 0) ∧ decodeTableWord 16 0b0000011100011000 = some (.and 7 8) ∧
    decodeTableWord 16 0b0000100100101010 = some (.or 9 10) ∧ decodeTableWord 16 0b0000101100111100 = some (.xor 11 12) ∧
    decodeTableWord 16 0b0000110111011110 = some (.mov 13 14) := by decide
theorem test_decode_ri :
    decodeTableWord 16 0b0101001100001010 = some (.addi 3 0x0A) ∧ decodeTableWord 16 0b1001001000000001 = some (.subi 2 0x01) ∧
    decodeTableWord 16 0b1011011010000000 = some (.cmpi 6 0x80) ∧ decodeTableWord 16 0b0001000111110000 = some (.andi 1 0xF0) ∧
    decodeTableWord 16 0b0010010000100001 = some (.ori 4 0x21) ∧ decodeTableWord 16 0b0011010111111111 = some (.xori 5 0xFF) ∧
    decodeTableWord 16 0b1101000100000000 = some (.movi 1 0x00) ∧ decodeTableWord 16 0b1111001000000011 = some (.lui 2 0x03) := by
  decide
theorem test_decode_shift :
    decodeTableWord 16 0b1000000101000010 = some (.lsh 1 2) ∧ decodeTableWord 16 0b1000010000010101 = some (.lshi 4 true 5) ∧
    decodeTableWord 16 0b1000010000001111 = some (.lshi 4 false 15) := by decide
theorem test_decode_load_store :
    decodeTableWord 16 0b0100001100000010 = some (.load 3 2) ∧ decodeTableWord 16 0b0100000101000010 = some (.stor 1 2) := by
  decide
theorem test_decode_control :
    decodeTableWord 16 0b1100000111111101 = some (.bcond .ne 0xFD) ∧ decodeTableWord 16 0b0100111011001111 = some (.jcond .uc 15) ∧
    decodeTableWord 16 0b0100111110000101 = some (.jal 15 5) ∧ decodeTableWord 16 0b0000000000000000 = some .wait ∧
    decodeTableWord 16 0b0100000000110000 = some .di ∧ decodeTableWord 16 0b0100000001110000 = some .ei ∧
    decodeTableWord 16 0b0100000010110111 = some (.excp 7) := by decide
theorem test_decode_cim :
    decodeTableWord 16 0b1110000100010010 = some (.stcr 1 2) ∧ decodeTableWord 16 0b1110001100100100 = some (.stcm 3 4) ∧
    decodeTableWord 16 0b1110010100110110 = some (.ldcr 5 6) ∧ decodeTableWord 16 0b1110000001001111 = some (.setq 15) ∧
    decodeTableWord 16 0b1110010001010111 = some (.cmpt 4 7) := by decide
/-- Table D2. -/
theorem test_decode_unrecognized :
    ([0x0001, 0x0040, 0x4031, 0x4090, 0x40A0, 0x6000, 0x7123, 0xA0FF, 0x8425, 0x8460, 0xE000, 0xE060, 0xE140].map
      (decodeTableWord 16)).all Option.isNone = true := by decide
/-- Table D3. -/
theorem test_decode_without_strict_zero_bits :
    decodeInstr regDefault false 0x8425 = some (.lshi 4 false 5) ∧ decodeInstr regDefault false 0x8445 = some (.lsh 4 5) ∧
    decodeInstr regDefault false 0xE140 = some (.setq 0) := by decide

/-! ### One step per instruction (95_test_vectors.md parts 5 to 8) -/

theorem test_add_overflows_up : shows (fun t => (t.reg 1, t.reg 2, znf t, t.pc)) (run1 0x0152 (start [(1, 0x7FFF), (2, 1)])) =
    some (0x8000, 1, (false, true, true), 1) := by decide
theorem test_add_wraps_to_zero : shows (fun t => (t.reg 1, znf t)) (run1 0x0152 (start [(1, 0x8000), (2, 0x8000)])) =
    some (0, (true, false, true)) := by decide
theorem test_addi_sign_extends : shows (fun t => (t.reg 3, znf t)) (run1 0x53FF (start [(3, 0x8000)])) =
    some (0x7FFF, (false, false, true)) := by decide
theorem test_addi_clears_overflow : shows (fun t => (t.reg 3, znf t)) (run1 0x5300 (start [(3, 5)] (f := true))) =
    some (5, (false, false, false)) := by decide
theorem test_sub_overflows : shows (fun t => (t.reg 1, znf t)) (run1 0x0192 (start [(1, 0), (2, 0x8000)])) =
    some (0x8000, (false, true, true)) := by decide
theorem test_subi_sign_extends : shows (fun t => (t.reg 2, znf t)) (run1 0x92FF (start [(2, 0x7FFF)])) =
    some (0x8000, (false, true, true)) := by decide
theorem test_cmp_keeps_its_register : shows (fun t => (t.reg 15, t.reg 0, znf t)) (run1 0x0FB0 (start [(15, 5), (0, 7)])) =
    some (5, 7, (false, true, false)) := by decide
theorem test_cmpi_equal : shows (fun t => (t.reg 6, znf t)) (run1 0xB680 (start [(6, 0xFF80)])) =
    some (0xFF80, (true, false, false)) := by decide
theorem test_and_keeps_overflow : shows (fun t => (t.reg 7, znf t)) (run1 0x0718 (start [(7, 0xFF0F), (8, 0x0FF0)] (f := true))) =
    some (0x0F00, (false, false, true)) := by decide
theorem test_andi_zero_extends : shows (fun t => (t.reg 1, znf t)) (run1 0x11F0 (start [(1, 0xF234)])) =
    some (0x0030, (false, false, false)) := by decide
theorem test_or_rewrites_negative : shows (fun t => (t.reg 9, znf t)) (run1 0x092A (start [] (n := true) (f := true))) =
    some (0, (true, false, true)) := by decide
theorem test_ori : shows (fun t => (t.reg 4, znf t)) (run1 0x2421 (start [(4, 0xF300)])) =
    some (0xF321, (false, true, false)) := by decide
theorem test_xor_of_one_register : shows (fun t => (t.reg 11, znf t)) (run1 0x0B3B (start [(11, 0xBEEF)])) =
    some (0, (true, false, false)) := by decide
theorem test_xori_zero_extends : shows (fun t => (t.reg 5, znf t)) (run1 0x35FF (start [(5, 0x00FF)])) =
    some (0, (true, false, false)) := by decide
theorem test_mov_writes_zero_flag : shows (fun t => (t.reg 13, znf t)) (run1 0x0DDE (start [(13, 5)])) =
    some (0, (true, false, false)) := by decide
theorem test_movi_zero_extends : shows (fun t => (t.reg 1, znf t)) (run1 0xD1FF (start [(1, 0x1234)])) =
    some (0x00FF, (false, false, false)) := by decide
theorem test_lsh_masks_a_negative_amount : shows (fun t => (t.reg 1, znf t)) (run1 0x8142 (start [(1, 3), (2, 0xFFFF)] (z := true))) =
    some (0x8000, (true, false, false)) := by decide
theorem test_lsh_does_not_mask_sixteen : shows (fun t => t.reg 1) (run1 0x8142 (start [(1, 1), (2, 16)])) = some 0 := by decide
theorem test_lshi_shifts : shows (fun t => (t.reg 4, t.pc)) (run1 0x8404 (start [(4, 0x0101)])) = some (0x1010, 1) := by decide
theorem test_lshi_negative_faults : shows (fun t => (t.reg 4, t.pc, t.run)) (run1 0x8415 (start [(4, 0x0101)])) =
    some (0x0101, 0, .faulted (.negativeShift (-5))) := by decide
theorem test_lui_writes_no_flag : shows (fun t => (t.reg 2, znf t)) (run1 0xF280 (start [(2, 0x1234)] (z := true) (f := true))) =
    some (0x8000, (true, false, true)) := by decide
theorem test_load_masks_the_address :
    shows (fun t => (t.reg 3, znf t)) (run1 0x4302 ((start [(2, 0xFFFF)]).memWrite 0x1FF 0x8001)) =
    some (0x8001, (false, false, false)) := by decide
theorem test_load_to_its_address_register : shows (fun t => t.reg 2) (run1 0x4202 ((start [(2, 0x0200)]).memWrite 0 0x1234)) =
    some 0x1234 := by decide
theorem test_stor_masks_the_address : shows (fun t => (t.dmem, t.reg 2)) (run1 0x4142 (start [(1, 0xBEEF), (2, 0x0201)])) =
    some ([(1, 0xBEEF)], 0x0201) := by decide
theorem test_stor_of_zero_removes_the_entry :
    shows (fun t => t.dmem) (run1 0x4142 (((start [(1, 0), (2, 5)]).memWrite 5 7).memWrite 2 9)) = some [(2, 9)] := by decide
theorem test_bcond_taken_backward : shows (fun t => t.pc) (run1 0xC1FD (start [] (pc := 4))) = some 2 := by decide
theorem test_bcond_below_zero : shows (fun t => t.pc) (run1 0xC080 (start [] (z := true) (pc := 10))) = some (-117) := by decide
theorem test_jcond_not_taken : shows (fun t => t.pc) (run1 0x40C1 (start [(1, 2)] (pc := 6))) = some 7 := by decide
theorem test_jcond_to_a_negative_target : shows (fun t => t.pc) (run1 0x4EC1 (start [(1, 0x8000)])) = some (-32768) := by decide
theorem test_jal_links_and_jumps : shows (fun t => (t.reg 15, t.pc)) (run1 0x4F85 (start [(5, 7)] (pc := 4))) = some (5, 7) := by decide
theorem test_jal_of_one_register_is_refused : refusal (run1 0x4F8F (start [])) = some (.jalSameRegister 15) := by decide
theorem test_wait_halts : shows (fun t => (t.run, t.pc)) (run1 0x0000 (start [] (pc := 5))) = some (.halted .wait, 5) := by decide
theorem test_wait_as_nop :
    shows (fun t => (t.run, t.pc)) (run1 0x0000 { start [] (pc := 5) with cfg := { paramsDefault with wait := .nop } }) =
    some (.running, 6) := by decide
theorem test_di : shows id (run1 0x4030 (start [])) = some ((start []).withFetchWord 16 0x4030).advance := by decide
theorem test_ei : shows id (run1 0x4070 (start [])) = some ((start []).withFetchWord 16 0x4070).advance := by decide
theorem test_excp_is_refused : refusal (run1 0x40B3 (start [])) = some (.excpHasNoMeaning 3) := by decide
theorem test_stcr_last_row : shows (fun t => (t.row 15, t.pc)) (run1 0xE112 (start [(1, 0x21F8), (2, 15)])) = some (0x21F8, 1) := by
  decide
theorem test_stcr_index_faults :
    shows (fun t => (t.run, t.cim == State.reset.cim, t.pc)) (run1 0xE112 (start [(1, 0x21F8), (2, 16)])) =
    some (.faulted (.cimIndex 16), true, 0) := by decide
theorem test_stcm_masks_both_indices :
    shows (fun t => t.row 4) (run1 0xE324 ((start [(3, 0x0014), (4, 0x0210)]).memWrite 0x10 0x7777)) = some 0x7777 := by decide
theorem test_ldcr_writes_negative :
    shows (fun t => (t.reg 6, znf t)) (run1 0xE536 ((start [(5, 1)] (f := true)).setRow 1 0x8888)) =
    some (0x8888, (false, true, true)) := by decide
theorem test_ldcr_index_faults : shows (fun t => (t.run, t.reg 6)) (run1 0xE536 (start [(5, 0xFFFF), (6, 9)])) =
    some (.faulted (.cimIndex (-1)), 9) := by decide
theorem test_setq : shows (fun t => (t.q, t.pc)) (run1 0xE04F (start [])) = some (15, 1) := by decide
/-- Set W1 in rows 0, 4, 8, 12, `Q` = 1. -/
theorem test_cmpt_stores :
    shows (fun t => t.dmem) (run1 0xE454 ((((start [(4, 0xF321)]).setRow 0 0x1111).setRow 4 0x21F8).setRow 8 0x7777 |>.setQ 1)) =
    some [(0x121, 0x01C2)] := by decide
/-- Set W2, table M3. -/
theorem test_cmpt_word_extremes :
    cmptWord 0x8888 0x7777 0x8888 0x7878 0x8888 4 = 0x1020 ∧ cmptWord 0x8888 0x7777 0x8888 0x7878 0x7777 5 = 0x0969 := by decide
theorem test_unrecognized_word_is_skipped : shows id (run1 0x4031 (start [] (pc := 3))) = some ((start [] (pc := 3)).withFetchWord 16 0x4031).advance := by
  decide
theorem test_mnemonic_without_a_rule_is_refused :
    refusal (run1 0x67A5 { start [] with cfg := { paramsDefault with registry := [⟨"TSTIR".toList, .ir 6⟩] } }) =
    some (.noExecutionRule "TSTIR".toList) := by decide
theorem test_reset_keeps_program_and_parameters :
    ({ (startWith [0x8415]).setReg 4 7 with run := .faulted (.negativeShift (-5)), cfg := { paramsDefault with wait := .nop } } : State).restart =
    startUnder { paramsDefault with wait := .nop } [0x8415] := by decide
theorem test_empty_program_ends : shows id (step State.reset) = some { State.reset with run := .halted .programEnd } := by decide

/-! ### The tool chain (95_test_vectors.md E2 to E4) -/

/-- Which of several errors is reported is the spec's decision D14 (log 27). -/
theorem test_encode_errors :
    errorOf (encodeOps regDefault "FOO".toList [.reg 1, .reg 2]) = some .unknownMnemonic ∧
    errorOf (encodeOps regDefault "ADD".toList [.reg 16]) = some .badOperandCount ∧
    errorOf (encodeOps regDefault "ADDI".toList [.reg 16, .imm 300]) = some .invalidRegister ∧
    errorOf (encodeOps regDefault "ADDI".toList [.reg 3, .reg 4]) = some .invalidImmediate ∧
    errorOf (encodeOps regDefault "ADDI".toList [.reg 3, .imm (-129)]) = some .immediateOutOfRange ∧
    errorOf (encodeOps [⟨"X".toList, .other "XYZ".toList⟩] "X".toList []) = some .unsupportedFormat := by decide
theorem test_encode_boundary_values :
    (encodeOps regDefault "ADDI".toList [.reg 3, .imm (-128)]).toOption = some 0x5380 ∧
    (encodeOps regDefault "ADDI".toList [.reg 3, .imm 255]).toOption = some 0x53FF ∧
    (encodeOps regDefault "LSHI".toList [.reg 4, .imm (-15)]).toOption = some 0x841F ∧
    (encodeOps regDefault "SETQ".toList [.imm 15]).toOption = some 0xE04F := by decide
theorem test_assemble_sum : (assemble regDefault sumText).program = some [0xD100, 0xD205, 0x0152, 0x9201, 0xC1FD, 0x0000] := by
  decide
theorem test_assemble_reports_the_failing_line :
    (assemble regDefault "DI\nADD R1\nEI".toList).diagnostics = [⟨2, "ADD".toList, .badOperandCount⟩] ∧
    (assemble regDefault "DI\nADD R1\nEI".toList).words = [0x4030, 0x4070] := by decide
theorem test_assemble_masks_a_numeric_condition_and_displacement :
    (assemble regDefault "BCOND 18, 300".toList).words = [0xC22C] := by decide

/-! ### A concrete input for the hypotheses of every statement that has any, at the ends of the ranges of its clauses -/

/-- A registry that is strong without strict zero bits. -/
def smallRegistry : Registry := [⟨"ADD".toList, .rr 0 5⟩, ⟨"LSHI".toList, .ri4 8⟩, ⟨"SETQ".toList, .i4 0xE 4⟩, ⟨"EXCP".toList, .fixv 0x40B⟩]

/-- A state that is about to run the word `w`. -/
def before (w : Nat) (s : State := start []) : State := s.withFetchWord 16 w

theorem witness_DecodeOfPack_strict :
    registryStrong true regDefault = true ∧ Mnemonic.lshi.descriptor ∈ regDefault ∧
    (Fields.ri4 4 true 0).tag = Mnemonic.lshi.descriptor.format.tag := by decide
theorem witness_DecodeOfPack_not_strict :
    registryStrong false smallRegistry = true ∧ ⟨"SETQ".toList, .i4 0xE 4⟩ ∈ smallRegistry ∧
    (Fields.i4 15).tag = (Format.i4 0xE 4).tag := by decide
theorem witness_DecodeOfPack_fixed_formats :
    Mnemonic.wait.descriptor ∈ regDefault ∧ Fields.fix.tag = Mnemonic.wait.format.tag ∧
    Mnemonic.excp.descriptor ∈ regDefault ∧ (Fields.fixv 15).tag = Mnemonic.excp.format.tag := by decide
theorem witness_DecodeOfEncodedOperands :
    registryStrong true regDefault = true ∧ (encodeOps regDefault "LSHI".toList [.reg 4, .imm (-5)]).toOption = some 0x8415 := by decide
theorem witness_RepackOfDecodedWord :
    decode regDefault true 0x8415 = .recognized ⟨"LSHI".toList, .ri4 8⟩ (.ri4 4 true 5) ∧
    decode regDefault false 0x84F5 = .recognized ⟨"LSHI".toList, .ri4 8⟩ (.ri4 4 true 5) ∧
    decode regDefault false 0xEF4F = .recognized ⟨"SETQ".toList, .i4 0xE 4⟩ (.i4 15) ∧
    decode regDefault false 0x0152 = .recognized ⟨"ADD".toList, .rr 0 5⟩ (.rr 1 2) := by decide
theorem witness_PackIsTotalInjectiveAndExact :
    (Fields.ri4 15 true 15).tag = (Format.ri4 8).tag ∧
    (pack ⟨"LSHI".toList, .ri4 8⟩ (.ri4 15 true 15)).toOption = some 0x8F1F ∧
    (Format.ri4 8).tag.supported = true ∧ (Format.ri4 8).selects true 0x8F1F = true ∧ (Format.ri4 8).selects true 0x8F2F = false := by decide
theorem witness_StrongRegistry_wf5 : wf5 true regDefault = true ∧ wf5 false smallRegistry = true := by decide
theorem witness_StrongRegistry_order : registryStrong true regDefault = true ∧ regDefault.Perm regDefault.reverse :=
  ⟨by decide, (List.reverse_perm _).symm⟩
theorem witness_StrongRegistry_selected :
    Mnemonic.cmpt.descriptor ∈ regDefault ∧ Mnemonic.cmpt.descriptor.format.selects true 0xE457 = true := by decide
theorem witness_UnassignedWords :
    unassignedWord 0x0001 = true ∧ unassignedWord 0x0000 = false ∧ unassignedWord 0xE140 = true ∧ unassignedWord 0xE040 = false := by decide
theorem witness_ResolveOfSignMagnitude_out_of_range : 15 ≤ 15 ∧ 16 ≤ (16 : Int).natAbs ∧ 16 ≤ (-16 : Int).natAbs := by decide
theorem witness_ResolveOfSignMagnitude_in_range :
    0 ≤ 15 ∧ (15 : Int).natAbs < 16 ∧ (-15 : Int).natAbs < 16 ∧ (0 : Int).natAbs < 16 := by decide
theorem witness_ResolveOfSignMagnitude_negative :
    (resolve ⟨"LSHI".toList, .ri4 8⟩ [.reg 15, .imm (-1)]).toOption = some (.ri4 15 true 1) := by decide
theorem witness_ResolveOfRegisterOperand_in_range : 0 ≤ 15 ∧ 15 ≤ 15 ∧ (0 : Int) ≤ 0 ∧ (0 : Int) ≤ 15 ∧ (15 : Int) ≤ 15 := by decide
theorem witness_ResolveOfRegisterOperand_no_register :
    (∀ n, Operand.reg 16 = .reg n → 15 < n) ∧ (∀ n, Operand.imm 5 = .reg n → 15 < n) := by
  constructor
  · intro n h
    cases h
    decide
  · intro n h
    cases h
theorem witness_AssemblyAccounts_queue : (labelPass sumText).queue[4]? = some ⟨4, 5, "BCOND NE, LOOP".toList⟩ := by decide
theorem witness_AssemblyAccounts_clean :
    (assemble regDefault sumText).diagnostics = [] ∧ (assemble regDefault sumText).words.length ≤ 32768 := by decide
theorem witness_AssemblyAccounts_no_program : (assemble regDefault "ADD R1".toList).diagnostics ≠ [] := by decide
theorem witness_AssemblyAccounts_program : (assemble regDefault sumText).program = some [0xD100, 0xD205, 0x0152, 0x9201, 0xC1FD, 0x0000] :=
  test_assemble_sum
theorem witness_BranchToALabel_ends_of_reach :
    condTrue .uc (start [] (pc := 200)).flags = true ∧ (start [] (pc := 200)).pc = ((200 : Nat) : Int) ∧
    (-128 : Int) ≤ (73 : Int) - (200 + 1) ∧ (328 : Int) - (200 + 1) ≤ 127 := by decide
theorem witness_ImmediateOperand : (0x7F : Byte).toNat < 128 ∧ ¬(0x80 : Byte).toNat < 128 := by decide
theorem witness_LshEffect_amounts :
    ((start [(2, 0xFFFF)]).reg 2).toInt < 0 ∧ ((start [(2, 0x8000)]).reg 2).toInt < 0 ∧
    0 ≤ ((start [(2, 0)]).reg 2).toInt ∧ ((start [(2, 15)]).reg 2).toInt < 16 ∧ 16 ≤ ((start [(2, 16)]).reg 2).toInt := by decide
theorem witness_LshiEffect : ((false = false ∨ (15 : Nibble) = 0) ∧ (true = false ∨ (0 : Nibble) = 0)) := by decide
theorem witness_Faults_lshi : (1 : Nibble) ≠ 0 ∧ (15 : Nibble) ≠ 0 := by decide
theorem witness_Faults_cim_index :
    ((start [(2, 0xFFFF)]).reg 2).toInt < 0 ∧ 15 < ((start [(2, 16)]).reg 2).toInt := by decide
theorem witness_SlotReads_same_slot :
    (start [(1, 0x0300), (2, 0xFF00), (3, 0x0100)]).reg 1 = 0x0300 ∧ (start [(1, 0x0300), (2, 0xFF00), (3, 0x0100)]).reg 2 = 0xFF00 ∧
    (start [(1, 0x0300), (2, 0xFF00), (3, 0x0100)]).reg 3 = 0x0100 := by decide
theorem witness_LoadEffect_ends :
    (0x1FF : SlotAddr).toNat = ((start [(2, 0xFFFF)]).reg 2).toNat % 512 ∧ (0 : SlotAddr).toNat = ((start [(2, 0x0200)]).reg 2).toNat % 512 := by
  decide
theorem witness_ConditionTruthTable : State.reset.flags.c = false ∧ State.reset.flags.l = false := by decide
theorem witness_JalEffect : (15 : Nibble) ≠ 5 := by decide
theorem witness_WaitEffect :
    State.reset.cfg.wait = .halt ∧ ({ State.reset with cfg := { paramsDefault with wait := .nop } } : State).cfg.wait = .nop := by decide
theorem witness_Stcr_row_numbers :
    ((start [(2, 0)]).reg 2).toInt = ((0 : Nibble).toNat : Int) ∧ ((start [(2, 15)]).reg 2).toInt = ((15 : Nibble).toNat : Int) := by decide
theorem witness_Stcm_indices :
    (15 : Nibble).toNat = ((start [(3, 0xFFFF), (4, 0x0200)]).reg 3).toNat % 16 ∧
    (0 : SlotAddr).toNat = ((start [(3, 0xFFFF), (4, 0x0200)]).reg 4).toNat % 512 := by decide
theorem witness_Ldcr_row_numbers :
    ((start [(5, 0)]).reg 5).toInt = ((0 : Nibble).toNat : Int) ∧ ((start [(5, 15)]).reg 5).toInt = ((15 : Nibble).toNat : Int) := by decide
theorem witness_CmptEffect_rows : (15 : Nibble).toNat = (7 : Nibble).toNat % 4 + 4 * (3 : Fin 4).val ∧ (0 : Nibble).toNat = (4 : Nibble).toNat % 4 + 4 * (0 : Fin 4).val := by
  decide
theorem witness_Quantization_ranges : (-224 : Int) ≤ -224 ∧ (256 : Int) ≤ 256 ∧ 9 ≤ 9 := by decide
theorem witness_Lanes_first_and_last_row :
    (3 : Nibble).toNat = (15 : Nibble).toNat % 4 ∧ (15 : Nibble).toNat = (15 : Nibble).toNat % 4 + 12 := by decide
theorem witness_CmptStoresAPureFunction :
    (∀ k : Fin 4, (start [(1, 7)]).row (cmptRow 1 k) = (start [(2, 7)]).row (cmptRow 2 k)) ∧
    (start [(1, 7)]).reg 1 = (start [(2, 7)]).reg 2 ∧ (start [(1, 7)]).q = (start [(2, 7)]).q := by decide
/-- Rows 0, 4, 8 and 12 hold the pattern. -/
def onesState : State := (((((start [(4, 0x1111)]).setRow 0 0x1111).setRow 4 0x1111).setRow 8 0x1111).setRow 12 0x1111)
theorem witness_CmptWorkedExample :
    onesState.reg 4 = 0x1111 ∧ onesState.q = 0 ∧ ∀ k : Fin 4, onesState.row (cmptRow 4 k) = 0x1111 := by decide
theorem witness_StepRunsTheDecodedInstruction :
    (before 0x0152).run = .running ∧ 0 ≤ (before 0x0152).pc ∧ (before 0x0152).prog[(before 0x0152).pc.toNat]? = some 0x0152 ∧
    decodeInstr (before 0x0152).cfg.registry (before 0x0152).cfg.strictZeroBits 0x0152 = some (.add 1 2) := by decide
theorem witness_ProgramEnd_both_ends :
    (start [] (pc := -1)).run = .running ∧ (start [] (pc := -1)).pc < 0 ∧ State.reset.run = .running ∧
    (State.reset.prog.length : Int) ≤ State.reset.pc ∧ shows State.run (step State.reset) = some (.halted .programEnd) := by decide
theorem witness_ProgramEnd_halting_instruction : (before 0x0000).Executes .wait ∧ (before 0x0000).cfg.wait = .halt :=
  ⟨⟨by decide, 0x0000, by decide, by decide⟩, by decide⟩
theorem witness_CarryAndLowerThan_run : Reaches (startWith [0x0050]) ((startWith [0x0050]).finishAdd 0 0 0) := .step .refl rfl
theorem witness_Skip :
    (before 0x4031).run = .running ∧ (before 0x4031).fetch = some 0x4031 ∧
    decode (before 0x4031).cfg.registry (before 0x4031).cfg.strictZeroBits 0x4031 = .unrecognized 0x4031 := by decide
theorem witness_Terminal :
    (State.reset.halt .wait).run ≠ .running ∧ (State.reset.raise (.cimIndex 16)).run ≠ .running := by decide
theorem witness_OnlyThreeRefusals :
    refusal (step (before 0x4F8F)) = some (.jalSameRegister 15) ∧ refusal (step (before 0x40B3)) = some (.excpHasNoMeaning 3) := by decide
theorem witness_LeavingRunning :
    (before 0x0000).run = .running ∧ shows State.run (step (before 0x0000)) = some (.halted .wait) ∧
    shows State.run (step (before 0x8415)) = some (.faulted (.negativeShift (-5))) ∧
    shows State.run (step (before 0xE112 (start [(2, 16)]))) = some (.faulted (.cimIndex 16)) ∧
    shows State.run (step (before 0xE536 (start [(5, 0xFFFF)]))) = some (.faulted (.cimIndex (-1))) := by decide
/-- A step that writes a register and all three flags. -/
theorem witness_CarryAndLowerThan_and_EveryChange :
    shows (fun t => (t.reg 1, znf t)) (step (before 0x0152 (start [(1, 0x7FFF), (2, 1)]))) = some (0x8000, (false, true, true)) := by decide
theorem witness_EveryChange_other_state :
    shows State.q (step (before 0xE04F)) = some 15 ∧
    shows (fun t => t.row 0) (step (before 0xE112 (start [(1, 5)]))) = some 5 ∧
    shows State.dmem (step (before 0x4142 (start [(1, 5)]))) = some [(0, 5)] := by decide
theorem witness_ProgramAndParameters : Reaches State.reset (State.reset.halt .programEnd) := .step .refl rfl
theorem witness_EveryStepKeepsTheInvariant :
    State.Inv (before 0x4142 (start [(1, 5)])) ∧ shows State.dmem (step (before 0x4142 (start [(1, 5)]))) = some [(0, 5)] := by
  refine ⟨⟨rfl, rfl, rfl, rfl, by decide⟩, by decide⟩
theorem witness_TheInvariantAtTheStart : (List.replicate 32768 (0 : Word)).length ≤ 32768 := by rw [List.length_replicate]
theorem witness_ResetIsTheOnlyWayOut :
    programWf ((startWith [0x0000]).halt .wait).prog = true ∧ ((startWith [0x0000]).halt .wait).run ≠ .running ∧
    Reaches ((startWith [0x0000]).halt .wait) ((startWith [0x0000]).halt .wait) := ⟨by decide, by decide, .refl⟩
theorem witness_StepLimit :
    runSteps 2 (startWith [0x0000]) = .terminal ((startWith [0x0000]).halt .wait) ∧
    (∀ t, RunEnd.terminal ((startWith [0x0000]).halt .wait) ≠ .limit t) ∧ 2 ≤ 9 := by
  refine ⟨by decide, ?_, by decide⟩
  intro t h
  cases h

end Sys2Proof.Tests
end

section
/-!
PROOFS. What an executed instruction can do to the state, said once (`exec_endsIn`); from it the part of the state that no
step writes, and the statements of 10_state.md about `C`, `L` and reset.
-/

namespace Sys2Proof.Machine

/-- The shapes in which the execution of an instruction in `s` can end, each through the shared operation that makes the
next state, with the table that names its writer: `destination` for a general register (10_state.md R13), `writesF` and
`writesZN` for the flags (R19), `writesQ` (R23), `writesBank` (R25), `writesMemory` (R27). `jump` holds the plain advance
of `pc` too. -/
inductive EndsIn (s : State) (i : Instr) : State → Prop where
  | add {ra : Nibble} (a b : Int) (hd : destination i = some ra) (hf : writesF i = true) : EndsIn s i (s.finishAdd ra a b)
  | sub {ra : Nibble} (a b : Int) (hd : destination i = some ra) (hf : writesF i = true) : EndsIn s i (s.finishSub ra a b)
  | cmp (a b : Int) (hf : writesF i = true) : EndsIn s i (s.finishCmp a b)
  | logic {ra : Nibble} (r : Word) (hd : destination i = some ra) (hzn : writesZN i = true) : EndsIn s i (s.finishLogic ra r)
  | move {ra : Nibble} (r : Word) (hd : destination i = some ra) : EndsIn s i (s.finishMove ra r)
  | store (a : SlotAddr) (v : Word) (hm : writesMemory i = true) : EndsIn s i (s.memWrite a v).advance
  | rowWrite (r : Nibble) (v : Word) (hb : writesBank i = true) : EndsIn s i (s.setRow r v).advance
  | setQ (v : Nibble) (hq : writesQ i = true) : EndsIn s i (s.setQ v).advance
  | link {ra : Nibble} (v : Word) (pc : Int) (hd : destination i = some ra) : EndsIn s i ((s.setReg ra v).jump pc)
  | jump (pc : Int) : EndsIn s i (s.jump pc)
  | halt (r : HaltReason) : EndsIn s i (s.halt r)
  | raise (k : FaultKind) : EndsIn s i (s.raise k)

/-- The inversion of `exec`: an instruction that answers a next state ends in one of the shapes. -/
theorem exec_endsIn {i : Instr} {s t : State} (h : exec i s = .next t) : EndsIn s i t := by
  cases i with
  | add ra rb => cases h; exact .add _ _ rfl rfl
  | addi ra imm8 => cases h; exact .add _ _ rfl rfl
  | sub ra rb => cases h; exact .sub _ _ rfl rfl
  | subi ra imm8 => cases h; exact .sub _ _ rfl rfl
  | cmp ra rb => cases h; exact .cmp _ _ rfl
  | cmpi ra imm8 => cases h; exact .cmp _ _ rfl
  | and ra rb => cases h; exact .logic _ rfl rfl
  | andi ra imm8 => cases h; exact .logic _ rfl rfl
  | or ra rb => cases h; exact .logic _ rfl rfl
  | ori ra imm8 => cases h; exact .logic _ rfl rfl
  | xor ra rb => cases h; exact .logic _ rfl rfl
  | xori ra imm8 => cases h; exact .logic _ rfl rfl
  | mov ra rb => cases h; exact .logic _ rfl rfl
  | movi ra imm8 => cases h; exact .logic _ rfl rfl
  | lsh ra rb => cases h; exact .move _ rfl
  | lshi ra sgn mag =>
    simp only [exec, execLshi] at h
    split at h
    · cases h; exact .raise _
    · cases h; exact .move _ rfl
  | lui ra imm8 => cases h; exact .move _ rfl
  | load ra rb => cases h; exact .move _ rfl
  | stor ra rb => cases h; exact .store _ _ rfl
  | bcond c disp =>
    cases h
    split <;> exact .jump _
  | jcond c rb =>
    cases h
    split <;> exact .jump _
  | jal ra rb =>
    simp only [exec, execJal] at h
    split at h
    · cases h
    · cases h; exact .link _ _ rfl
  | wait =>
    cases h
    split
    · exact .halt _
    · exact .jump _
  | di => cases h; exact .jump _
  | ei => cases h; exact .jump _
  | excp vec => cases h
  | stcr ra rb =>
    simp only [exec, execStcr] at h
    split at h
    · cases h; exact .raise _
    · cases h; exact .rowWrite _ _ rfl
  | stcm ra rb => cases h; exact .rowWrite _ _ rfl
  | ldcr ra rb =>
    simp only [exec, execLdcr] at h
    split at h
    · cases h; exact .raise _
    · cases h; exact .logic _ rfl rfl
  | setq imm4 => cases h; exact .setQ _ rfl
  | cmpt ra rb => cases h; exact .store _ _ rfl

/-! ### The part of the state that no step writes -/

/-- `FixedKept` without the run state: what is as before over every step, also one that halts or faults. -/
def ConstantsKept (s t : State) : Prop :=
  t.flags.c = s.flags.c ∧ t.flags.l = s.flags.l ∧ t.prog = s.prog ∧ t.cfg = s.cfg

theorem ConstantsKept.refl (s : State) : ConstantsKept s s := ⟨rfl, rfl, rfl, rfl⟩

theorem ConstantsKept.trans {s t u : State} (hst : ConstantsKept s t) (htu : ConstantsKept t u) : ConstantsKept s u := by
  obtain ⟨hc, hl, hp, hg⟩ := hst
  obtain ⟨hc', hl', hp', hg'⟩ := htu
  exact ⟨hc'.trans hc, hl'.trans hl, hp'.trans hp, hg'.trans hg⟩

theorem FixedKept.constantsKept {s t : State} (h : FixedKept s t) : ConstantsKept s t := by
  obtain ⟨hc, hl, -, hp, hg⟩ := h
  exact ⟨hc, hl, hp, hg⟩

theorem RegisterOnly.constantsKept {rs : List Nibble} {s t : State} (h : RegisterOnly rs s t) : ConstantsKept s t := by
  obtain ⟨-, -, -, -, hfixed⟩ := h
  exact hfixed.constantsKept

theorem EndsIn.constantsKept {s t : State} {i : Instr} (h : EndsIn s i t) : ConstantsKept s t := by
  cases h with
  | @add ra a b =>
    obtain ⟨-, -, -, -, hframe⟩ := s.finishAdd_spec ra a b
    exact hframe.constantsKept
  | @sub ra a b =>
    obtain ⟨-, -, -, -, hframe⟩ := s.finishSub_spec ra a b
    exact hframe.constantsKept
  | cmp a b =>
    obtain ⟨-, -, -, hframe⟩ := s.finishCmp_spec a b
    exact hframe.constantsKept
  | @logic ra r =>
    obtain ⟨-, -, -, -, hframe⟩ := s.finishLogic_spec ra r
    exact hframe.constantsKept
  | @move ra r =>
    obtain ⟨-, -, -, hframe⟩ := s.finishMove_spec ra r
    exact hframe.constantsKept
  | store a v =>
    obtain ⟨-, -, -, -, -, hfixed⟩ := s.store_spec a v
    exact hfixed.constantsKept
  | rowWrite r v =>
    obtain ⟨-, -, -, -, -, hfixed⟩ := s.rowWrite_spec r v
    exact hfixed.constantsKept
  | setQ v => simp [ConstantsKept]
  | link v pc => simp [ConstantsKept]
  | jump pc => simp [ConstantsKept]
  | halt r => simp [ConstantsKept]
  | raise k => simp [ConstantsKept]

theorem step_constantsKept {s t : State} (h : step s = .next t) : ConstantsKept s t := by
  obtain ⟨-, rfl⟩ | ⟨-, -, rfl⟩ | ⟨w, -, -, -, rfl⟩ | ⟨i, -, hexec⟩ := step_next_cases h
  · exact .refl _
  · simp [ConstantsKept]
  · simp [ConstantsKept]
  · exact (exec_endsIn hexec).constantsKept

theorem Reaches.constantsKept {s t : State} (h : Reaches s t) : ConstantsKept s t := by
  induction h with
  | refl => exact .refl s
  | step _ hstep ih => exact ih.trans (step_constantsKept hstep)

/-! ### The conditions that read `C` and `L` -/

theorem startUnder_carry_lowerThan (cfg : Params) (prog : List Word) :
    (startUnder cfg prog).flags.c = false ∧ (startUnder cfg prog).flags.l = false := ⟨rfl, rfl⟩

/-- The truth table of 30_encoding.md R57 for a clear `C`. -/
theorem condTrue_of_carry_clear {f : Flags} (hc : f.c = false) : condTrue .cs f = false ∧ condTrue .cc f = true := by
  simp [condTrue, hc]

/-- The truth table of 30_encoding.md R57 for a clear `L`: HI and LS are constant, LO and HS read `Z` alone. -/
theorem condTrue_of_lowerThan_clear {f : Flags} (hl : f.l = false) :
    condTrue .hi f = false ∧ condTrue .ls f = true ∧ condTrue .lo f = !f.z ∧ condTrue .hs f = f.z := by
  simp [condTrue, hl]

/-- Settles O52: no shape of a step writes `C` or `L`, so both keep along a run the value they have at its start. -/
theorem carryAndLowerThanAreNeverWritten : Obligations.CarryAndLowerThanAreNeverWritten := by
  unfold Obligations.CarryAndLowerThanAreNeverWritten
  constructor
  · intro s t hstep
    obtain ⟨hc, hl, -, -⟩ := step_constantsKept hstep
    exact ⟨hc, hl⟩
  · intro prog t hreach
    obtain ⟨hc, hl, -, -⟩ := hreach.constantsKept
    obtain ⟨hc₀, hl₀⟩ := startUnder_carry_lowerThan paramsDefault prog
    have htc : t.flags.c = false := hc.trans hc₀
    have htl : t.flags.l = false := hl.trans hl₀
    obtain ⟨hcs, hcc⟩ := condTrue_of_carry_clear htc
    exact ⟨htc, htl, hcs, hcc, condTrue_of_lowerThan_clear htl⟩

/-- Settles O57, by what each read of the reset state returns. -/
theorem resetZeroesRegistersMemoryAndProgramCounter : Obligations.ResetZeroesRegistersMemoryAndProgramCounter :=
  ⟨State.reset_reg, rfl, State.reset_memRead⟩

end Sys2Proof.Machine
end

section
/-!
PROOFS. Data memory (20_memory.md): which registers give one effective address, and what the four instructions that access a
slot answer.
-/

namespace Sys2Proof.Machine

/-! ### The effective address -/

/-- The address mask reads the same 9 bits of a word, signed or unsigned (20_memory.md R30). -/
theorem word_toInt_emod_512 (v : Word) : v.toInt % 512 = ((v.toNat % 512 : Nat) : Int) := by
  have hcond := BitVec.toInt_eq_toNat_cond v
  split at hcond <;> omega

theorem State.ea_eq_iff_sub_emod (s : State) (i j : Nibble) :
    s.ea i = s.ea j ↔ ((s.reg i).toInt - (s.reg j).toInt) % 512 = 0 := by
  rw [← BitVec.toNat_inj, State.ea_toNat, State.ea_toNat, ← Int.emod_eq_emod_iff_emod_sub_eq_zero,
    word_toInt_emod_512, word_toInt_emod_512, Nat.cast_inj]

theorem State.ea_eq_of_reg_emod (s : State) (i : Nibble) (a : SlotAddr) (h : (s.reg i).toNat % 512 = a.toNat) :
    s.ea i = a :=
  BitVec.eq_of_toNat_eq ((s.ea_toNat i).trans h)

/-! ### The instructions that access data memory -/

theorem exec_load (ra rb : Nibble) (s : State) :
    exec (.load ra rb) s = .next (s.finishMove ra (s.memRead (s.ea rb))) := rfl

theorem exec_stor (ra rb : Nibble) (s : State) :
    exec (.stor ra rb) s = .next (s.memWrite (s.ea rb) (s.reg ra)).advance := rfl

theorem exec_stcm (ra rb : Nibble) (s : State) :
    exec (.stcm ra rb) s = .next (s.setRow (s.maskedRow ra) (s.memRead (s.ea rb))).advance := rfl

theorem exec_cmpt (ra rb : Nibble) (s : State) :
    exec (.cmpt ra rb) s = .next (s.memWrite (s.ea rb) (s.cmptResult ra)).advance := rfl

@[simp] theorem State.finishMove_run (s : State) (ra : Nibble) (r : Word) : (s.finishMove ra r).run = s.run := rfl

/-- No access faults: each of the four ends in a shared operation that keeps the run state (20_memory.md R31). -/
theorem exec_memoryAccess_keeps_run (s : State) (ra rb : Nibble) :
    ∀ i ∈ [Instr.load ra rb, .stor ra rb, .stcm ra rb, .cmpt ra rb], ∃ t, exec i s = .next t ∧ t.run = s.run := by
  intro i hi
  simp only [List.mem_cons, List.not_mem_nil, or_false] at hi
  obtain rfl | rfl | rfl | rfl := hi
  · exact ⟨_, exec_load ra rb s, s.finishMove_run ra _⟩
  · exact ⟨_, exec_stor ra rb s, by rw [State.advance_run, State.memWrite_run]⟩
  · exact ⟨_, exec_stcm ra rb s, by rw [State.advance_run, State.setRow_run]⟩
  · exact ⟨_, exec_cmpt ra rb s, by rw [State.advance_run, State.memWrite_run]⟩

/-- Settles O28: the read-after-write law of data memory, the 9-bit mask as congruence modulo 512, and the four accesses. -/
theorem slotReadsAndAddressMask : Obligations.SlotReadsAndAddressMask := by
  unfold Obligations.SlotReadsAndAddressMask
  refine ⟨State.memWrite_memRead, State.ea_eq_iff_sub_emod, ?examples, exec_memoryAccess_keeps_run⟩
  case examples =>
    intro s i hreg
    apply State.ea_eq_of_reg_emod
    obtain h | h | h := hreg <;> rw [h] <;> rfl

end Sys2Proof.Machine
end

section
/-!
PROOFS. Encoding (30_encoding.md): the truth table of the conditions on their codes, and the machine-code file with its
reader.
-/

namespace Sys2Proof.Machine

/-! ### The conditions on their codes -/

/-- The reverse lookup lists the conditions in the order of their codes (30_encoding.md R56). -/
theorem map_ofCode_range : (List.range 16).map (fun k => Cond.ofCode (BitVec.ofNat 4 k)) = condAll := by decide

theorem map_condTrue_ofCode_range (f : Flags) :
    (List.range 16).map (fun k => condTrue (Cond.ofCode (BitVec.ofNat 4 k)) f) = condAll.map (condTrue · f) := by
  rw [← map_ofCode_range, List.map_map, Function.comp_def]

/-- The reduced table of 30_encoding.md R57: only the conditions that read `C` or `L` differ from the full one. -/
theorem map_condTrue_condAll_of_clear {f : Flags} (hc : f.c = false) (hl : f.l = false) :
    condAll.map (condTrue · f) =
      [f.z, !f.z, false, true, false, true, f.n, !f.n, f.f, !f.f, !f.z, f.z, !f.n && !f.z, f.n || f.z, true, false] := by
  obtain ⟨hcs, hcc⟩ := condTrue_of_carry_clear hc
  obtain ⟨hhi, hls, hlo, hhs⟩ := condTrue_of_lowerThan_clear hl
  simp only [condAll, List.map_cons, List.map_nil, hcs, hcc, hhi, hls, hlo, hhs]
  rfl

/-- Settles O31: on the codes of R56 the conditions stand in table order, where `condTrue` is the table of R57. -/
theorem conditionTruthTable : Obligations.ConditionTruthTable := by
  unfold Obligations.ConditionTruthTable
  intro f
  rw [map_condTrue_ofCode_range]
  exact ⟨rfl, map_condTrue_condAll_of_clear⟩

/-! ### The machine-code file -/

theorem hexDigit_mem : ∀ n : Nibble, hexDigit n ∈ "0123456789ABCDEF".toList := by decide

@[simp] theorem upperHexVal_hexDigit : ∀ n : Nibble, upperHexVal (hexDigit n) = some n := by decide

theorem hex4_length (w : Word) : (hex4 w).length = 4 := rfl

theorem mem_hex4_iff (w : Word) (ch : Char) :
    ch ∈ hex4 w ↔ ch = hexDigit (opField w) ∨ ch = hexDigit (raField w) ∨ ch = hexDigit (extField w) ∨
      ch = hexDigit (rbField w) := by
  simp [hex4]

theorem mem_hexDigits_of_mem_hex4 {w : Word} {ch : Char} (h : ch ∈ hex4 w) : ch ∈ "0123456789ABCDEF".toList := by
  obtain rfl | rfl | rfl | rfl := (mem_hex4_iff w ch).mp h <;> exact hexDigit_mem _

/-- The file is the concatenation of its lines (30_encoding.md R74). -/
theorem machineCode_eq_flatten (prog : List Word) :
    machineCode prog = (prog.map (fun w => hex4 w ++ ['\n'])).flatten := by
  induction prog with
  | nil => rfl
  | cons w ws ih => simp [machineCode, ih]

/-- The reader takes one line off: the digits give back the four fields, and the fields the word. -/
theorem readMachineCode_line (w : Word) {rest : Text} {ws : List Word} (h : readMachineCode rest = some ws) :
    readMachineCode (hex4 w ++ '\n' :: rest) = some (w :: ws) := by
  simp [hex4, readMachineCode, h, nibbles_fields]

theorem readMachineCode_machineCode (prog : List Word) : readMachineCode (machineCode prog) = some prog := by
  induction prog with
  | nil => rfl
  | cons w ws ih => exact readMachineCode_line w ih

/-- Settles O14: the file is read back line by line, and each line is four upper-case digits. -/
theorem machineCodeFileReadsBack : Obligations.MachineCodeFileReadsBack := by
  unfold Obligations.MachineCodeFileReadsBack
  intro prog
  exact ⟨readMachineCode_machineCode prog, machineCode_eq_flatten prog,
    fun w => ⟨hex4_length w, fun _ => mem_hexDigits_of_mem_hex4⟩⟩

end Sys2Proof.Machine
end

section
/-!
PROOFS. The resolver of the encoder (40_encoder.md R94 to R102): the equation of each format with register operands, what
the reader of resolved operands answers, and the statements of R95 and R97.
-/

namespace Sys2Proof.Machine

/-! ### The formats with a register operand -/

theorem resolve_rr (name : Text) (op ext : Nibble) (a b : Operand) :
    resolve ⟨name, .rr op ext⟩ [a, b] =
      (do let ra ← operandReader.reg a; let rb ← operandReader.reg b; .ok (.rr ra rb)) := rfl

theorem resolve_rs (name : Text) (op ext : Nibble) (a b : Operand) :
    resolve ⟨name, .rs op ext⟩ [a, b] =
      (do let ra ← operandReader.reg a; let rb ← operandReader.reg b; .ok (.rs ra rb)) := rfl

theorem resolve_jcond (name : Text) (op ext c : Nibble) (b : Operand) :
    resolve ⟨name, .jcond op ext⟩ [.cond c, b] = (do let rb ← operandReader.reg b; .ok (.jcond c rb)) := rfl

theorem resolve_ri (name : Text) (op : Nibble) (a b : Operand) :
    resolve ⟨name, .ri op⟩ [a, b] =
      (do let ra ← operandReader.reg a; let v ← operandReader.imm8 b; .ok (.ri ra v)) := rfl

theorem resolve_ir (name : Text) (op : Nibble) (a b : Operand) :
    resolve ⟨name, .ir op⟩ [a, b] =
      (do let ra ← operandReader.reg a; let v ← operandReader.imm8 b; .ok (.ir ra v)) := rfl

theorem resolve_ri4 (name : Text) (op : Nibble) (a b : Operand) :
    resolve ⟨name, .ri4 op⟩ [a, b] =
      (do let ra ← operandReader.reg a; let v ← operandReader.signMag b; .ok (.ri4 ra v.1 v.2)) := rfl

/-- The inversion of `resolve` on RI4: only a list of two operands, each read without an error, gives a record. -/
theorem resolve_ri4_eq_ok {name : Text} {op : Nibble} {ops : List Operand} {f : Fields}
    (h : resolve ⟨name, .ri4 op⟩ ops = .ok f) :
    ∃ a b ra v, ops = [a, b] ∧ operandReader.reg a = .ok ra ∧ operandReader.signMag b = .ok v ∧ f = .ri4 ra v.1 v.2 := by
  match ops with
  | [] | [_] | _ :: _ :: _ :: _ => cases h
  | [a, b] =>
    rw [resolve_ri4] at h
    cases ha : operandReader.reg a with
    | error e => rw [ha] at h; cases h
    | ok ra =>
      cases hb : operandReader.signMag b with
      | error e => rw [ha, hb] at h; cases h
      | ok v =>
        rw [ha, hb] at h
        cases h
        exact ⟨a, b, ra, v, rfl, ha, hb, rfl⟩

/-! ### The reader of resolved operands -/

theorem operandReader_reg_of_le {n : Nat} (h : n ≤ 15) : operandReader.reg (.reg n) = .ok (BitVec.ofNat 4 n) := if_pos h

theorem nibble_ofNat_toNat {n : Nat} (h : n ≤ 15) : (BitVec.ofNat 4 n).toNat = n := by
  rw [BitVec.toNat_ofNat, Nat.mod_eq_of_lt (by omega)]

/-- An operand that names no register: a number above 15, or another kind (R95). -/
theorem operandReader_reg_of_no_register {a : Operand} (h : ∀ n, a = .reg n → 15 < n) :
    operandReader.reg a = .error .invalidRegister := by
  cases a with
  | reg n => exact if_neg (Nat.not_le_of_lt (h n rfl))
  | imm v => rfl
  | cond c => rfl
  | disp d => rfl

theorem operandReader_imm8_of_mem {v : Int} (hlo : -128 ≤ v) (hhi : v ≤ 255) :
    operandReader.imm8 (.imm v) = .ok (BitVec.ofInt 8 v) := if_pos ⟨hlo, hhi⟩

theorem operandReader_signMag_of_large {v : Int} (h : 16 ≤ v.natAbs) :
    operandReader.signMag (.imm v) = .error .immediateOutOfRange := if_pos h

theorem operandReader_signMag_of_small {v : Int} (h : v.natAbs < 16) :
    operandReader.signMag (.imm v) = .ok (decide (v < 0), BitVec.ofNat 4 v.natAbs) := if_neg (Nat.not_le_of_lt h)

/-- A set sign bit means a negative value, and the magnitude of a negative value in range is not 0 (R97). -/
theorem operandReader_signMag_negative {a : Operand} {mag : Nibble} (h : operandReader.signMag a = .ok (true, mag)) :
    mag ≠ 0 := by
  cases a with
  | reg n => cases h
  | cond c => cases h
  | disp d => cases h
  | imm v =>
    rcases Nat.lt_or_ge v.natAbs 16 with hsmall | hlarge
    · rw [operandReader_signMag_of_small hsmall, Except.ok.injEq, Prod.mk.injEq, decide_eq_true_iff] at h
      obtain ⟨hneg, rfl⟩ := h
      intro hzero
      have hmag : (BitVec.ofNat 4 v.natAbs).toNat = v.natAbs := nibble_ofNat_toNat (by omega)
      rw [hzero] at hmag
      exact hneg.ne (Int.natAbs_eq_zero.mp hmag.symm)
    · rw [operandReader_signMag_of_large hlarge] at h
      cases h

/-! ### The obligations -/

/-- Settles O10: the two ranges of the absolute value, and the inversion of `resolve` on RI4 for a set sign bit. -/
theorem resolveOfSignMagnitudeImmediate : Obligations.ResolveOfSignMagnitudeImmediate := by
  unfold Obligations.ResolveOfSignMagnitudeImmediate
  intro name op n hn
  have hreg := operandReader_reg_of_le hn
  refine ⟨?outOfRange, ?inRange, ?negative⟩
  case outOfRange =>
    intro v hv
    rw [resolve_ri4, hreg, operandReader_signMag_of_large hv]
    rfl
  case inRange =>
    intro v hv
    refine ⟨BitVec.ofNat 4 n, decide (v < 0), BitVec.ofNat 4 v.natAbs, ?_, nibble_ofNat_toNat hn, decide_eq_true_iff,
      nibble_ofNat_toNat (Nat.le_of_lt_succ hv)⟩
    rw [resolve_ri4, hreg, operandReader_signMag_of_small hv]
    rfl
  case negative =>
    intro ops ra mag h
    obtain ⟨_, b, _, ⟨_, _⟩, -, -, hb, hf⟩ := resolve_ri4_eq_ok h
    cases hf
    exact operandReader_signMag_negative hb

/-- Settles O11: each format reads its register operands with `operandReader.reg`. The error of the first operand ends the
resolution whatever follows (R102), and the error of the second comes after a first operand that is read. -/
theorem resolveOfRegisterOperand : Obligations.ResolveOfRegisterOperand := by
  unfold Obligations.ResolveOfRegisterOperand
  intro name op ext c
  refine ⟨?registers, ?immediates, ?noRegister⟩
  case registers =>
    intro n m hn hm
    refine ⟨BitVec.ofNat 4 n, BitVec.ofNat 4 m, nibble_ofNat_toNat hn, nibble_ofNat_toNat hm, ?_⟩
    rw [resolve_rr, resolve_rs, resolve_jcond, operandReader_reg_of_le hn, operandReader_reg_of_le hm]
    exact ⟨rfl, rfl, rfl⟩
  case immediates =>
    intro n v hn hlo hhi
    refine ⟨BitVec.ofNat 4 n, BitVec.ofInt 8 v, BitVec.ofNat 4 v.natAbs, nibble_ofNat_toNat hn, ?_⟩
    have hsign : decide (v < 0) = false := decide_eq_false (Int.not_lt.mpr hlo)
    rw [resolve_ri, resolve_ir, resolve_ri4, operandReader_reg_of_le hn,
      operandReader_imm8_of_mem (by omega) (by omega), operandReader_signMag_of_small (by omega), hsign]
    exact ⟨rfl, rfl, rfl⟩
  case noRegister =>
    intro a ha
    have hreg := operandReader_reg_of_no_register ha
    refine ⟨?jump, ?oneOfTwo, ?bothOfTwo, ?beforeImmediate⟩
    case jump =>
      rw [resolve_jcond, hreg]
      rfl
    case oneOfTwo =>
      intro n hn
      simp only [resolve_rr, resolve_rs, hreg, operandReader_reg_of_le hn]
      exact ⟨rfl, rfl, rfl, rfl⟩
    case bothOfTwo =>
      intro b _
      rw [resolve_rr, resolve_rs, hreg]
      exact ⟨rfl, rfl⟩
    case beforeImmediate =>
      intro v _ _
      rw [resolve_ri, resolve_ir, resolve_ri4, hreg]
      exact ⟨rfl, rfl, rfl⟩

end Sys2Proof.Machine
end

section
/-!
PROOFS. Arithmetic (42_alu.md): the shared end of ADD and ADDI on the operand values it adds, and the two instructions.
-/

namespace Sys2Proof.Machine

/-! ### The add class -/

theorem exec_add (ra rb : Nibble) (s : State) :
    exec (.add ra rb) s = .next (s.finishAdd ra (s.regInt ra) (s.regInt rb)) := rfl

theorem exec_addi (ra : Nibble) (imm8 : Byte) (s : State) :
    exec (.addi ra imm8) s = .next (s.finishAdd ra (s.regInt ra) (immInt s.cfg.imm8.addi imm8)) := rfl

/-- `finishAdd_spec` with the result as a signed number (42_alu.md R135) and `F` by the sign rule (R136). The operands are
any integers, so it serves every source of the second operand. -/
theorem State.finishAdd_signed (s : State) (ra : Nibble) (a b : Int) :
    ((s.finishAdd ra a b).reg ra).toInt = (a + b).bmod 65536 ∧
    FlagsOf ((s.finishAdd ra a b).reg ra) (s.finishAdd ra a b) ∧
    ((s.finishAdd ra a b).flags.f = true ↔
      ((a < 0 ↔ b < 0) ∧ ¬(((s.finishAdd ra a b).reg ra).toInt < 0 ↔ a < 0))) ∧
    (s.finishAdd ra a b).pc = s.pc + 1 ∧ RegisterOnly [ra] s (s.finishAdd ra a b) := by
  obtain ⟨hreg, hzn, hf, hpc, hframe⟩ := s.finishAdd_spec ra a b
  rw [hreg, hf]
  exact ⟨narrow16_toInt _, hzn, overflowAdd_iff a b _, hpc, hframe⟩

/-- Settles O16: ADD and ADDI end in `finishAdd`, with a register and with the field under the policy of the state as the
second operand. -/
theorem addAndAddiEffect : Obligations.AddAndAddiEffect := by
  unfold Obligations.AddAndAddiEffect
  intro s ra
  constructor
  · intro rb
    exact ⟨_, exec_add ra rb s, s.finishAdd_signed ra (s.regInt ra) (s.regInt rb)⟩
  · intro imm8
    exact ⟨_, exec_addi ra imm8 s, s.finishAdd_signed ra (s.regInt ra) (immInt s.cfg.imm8.addi imm8)⟩

end Sys2Proof.Machine
end

section
/-!
PROOFS. Control (45_control.md): what a running core's step is, once it is known what it fetches, and how an instruction can
leave `Running`; from them the rule of R178 on the end of the program.
-/

namespace Sys2Proof.Machine

/-! ### The step of a running core -/

theorem step_of_fetch_none {s : State} (hrun : s.run = .running) (hfetch : s.fetch = none) :
    step s = .next (s.halt .programEnd) := by
  simp only [step, hrun, hfetch, State.endProgram]

theorem step_of_executes {s : State} {i : Instr} (h : s.Executes i) : step s = exec i s := by
  obtain ⟨hrun, w, hfetch, hdecode⟩ := h
  simp only [step, hrun, hfetch, decodeWord_eq_instr.mp hdecode]

/-! ### The run state after an instruction -/

theorem exec_wait_of_halt {s : State} (h : s.cfg.wait = .halt) : exec .wait s = .next (s.halt .wait) := by
  simp only [exec, execWait, h]

/-- The inversion of `exec` on the run state: an instruction keeps it, halts as WAIT (60_exceptions.md R223), or raises a
fault (R222). -/
theorem exec_run_cases {i : Instr} {s t : State} (h : exec i s = .next t) :
    t.run = s.run ∨ (i = .wait ∧ s.cfg.wait = .halt ∧ t = s.halt .wait) ∨ ∃ k, t = s.raise k := by
  cases i with
  | add | addi | sub | subi | cmp | cmpi | and | andi | or | ori | xor | xori | mov | movi
  | lsh | lui | load | stor | di | ei | stcm | setq | cmpt => cases h; exact .inl rfl
  | excp => cases h
  | bcond | jcond =>
    cases h
    split <;> exact .inl rfl
  | jal =>
    simp only [exec, execJal] at h
    split at h
    · cases h
    · cases h; exact .inl rfl
  | wait =>
    cases h
    split
    · next hpolicy => exact .inr (.inl ⟨rfl, hpolicy, rfl⟩)
    · exact .inl rfl
  | lshi | stcr | ldcr =>
    simp only [exec, execLshi, execStcr, execLdcr] at h
    split at h
    · cases h; exact .inr (.inr ⟨_, rfl⟩)
    · cases h; exact .inl rfl

/-- `ProgramEnd` is no instruction's halt: it comes from the fetch alone (45_control.md R178). -/
theorem exec_run_ne_programEnd {i : Instr} {s t : State} (hrun : s.run = .running) (h : exec i s = .next t) :
    t.run ≠ .halted .programEnd := by
  obtain hkept | ⟨-, -, rfl⟩ | ⟨k, rfl⟩ := exec_run_cases h
  · rw [hkept, hrun]; decide
  · rw [State.halt_run]; decide
  · rw [State.raise_run]; exact RunState.noConfusion

theorem fetch_eq_none_of_step_programEnd {s t : State} (hrun : s.run = .running) (h : step s = .next t)
    (hend : t.run = .halted .programEnd) : s.fetch = none := by
  obtain ⟨hstopped, -⟩ | ⟨-, hfetch, -⟩ | ⟨w, -, -, -, rfl⟩ | ⟨i, -, hexec⟩ := step_next_cases h
  · exact absurd hrun hstopped
  · exact hfetch
  · rw [State.advance_run, hrun] at hend
    cases hend
  · exact absurd hend (exec_run_ne_programEnd hrun hexec)

/-! ### The obligation -/

/-- Settles O48: the fetch finds nothing exactly when `pc` is outside the program, and among the shapes of a step of a
running core only an empty fetch halts with `ProgramEnd`. -/
theorem programEndExactlyOutsideTheProgram : Obligations.ProgramEndExactlyOutsideTheProgram := by
  unfold Obligations.ProgramEndExactlyOutsideTheProgram
  intro s hrun
  refine ⟨?outside, ?converse, ?haltingInstruction, ?emptyProgram⟩
  case outside =>
    intro hpc
    exact step_of_fetch_none hrun (s.fetch_eq_none.mpr hpc)
  case converse =>
    intro t hstep hend
    exact s.fetch_eq_none.mp (fetch_eq_none_of_step_programEnd hrun hstep hend)
  case haltingInstruction =>
    intro hwait hpolicy
    exact ⟨s.halt .wait, (step_of_executes hwait).trans (exec_wait_of_halt hpolicy), s.halt_run .wait⟩
  case emptyProgram => exact step_of_fetch_none rfl rfl

end Sys2Proof.Machine
end

section
/-!
PROOFS. The CIM extension (46_cim.md): a lane's accumulator, its division by `2^Q`, the packing of the four lanes, and the
word CMPT stores.
-/

namespace Sys2Proof.Machine

/-! ### The accumulator -/

theorem snib_bounds (v : Word) (i : Fin 4) : -8 ≤ snib v i ∧ snib v i ≤ 7 :=
  ⟨(nibble v i).le_toInt, Int.le_of_lt_add_one (nibble v i).toInt_lt⟩

/-- The range of one product (46_cim.md R205). For a fixed sign of the second factor, the ends come from the ends of the
first. -/
theorem snib_mul_snib_bounds (v w : Word) (i j : Fin 4) : -56 ≤ snib v i * snib w j ∧ snib v i * snib w j ≤ 64 := by
  obtain ⟨hlo, hhi⟩ := snib_bounds v i
  obtain ⟨hlo', hhi'⟩ := snib_bounds w j
  obtain hpos | hneg := le_total 0 (snib w j)
  · have hmulLo := mul_le_mul_of_nonneg_right hlo hpos
    have hmulHi := mul_le_mul_of_nonneg_right hhi hpos
    omega
  · have hmulLo := mul_le_mul_of_nonpos_right hlo hneg
    have hmulHi := mul_le_mul_of_nonpos_right hhi hneg
    omega

theorem dot_eq_sum (row act : Word) : dot row act = ∑ j : Fin 4, snib row j * snib act j := by
  rw [dot, Fin.sum_univ_four]

theorem dot_bounds (row act : Word) : -224 ≤ dot row act ∧ dot row act ≤ 256 := by
  have h0 := snib_mul_snib_bounds row act 0 0
  have h1 := snib_mul_snib_bounds row act 1 1
  have h2 := snib_mul_snib_bounds row act 2 2
  have h3 := snib_mul_snib_bounds row act 3 3
  unfold dot
  omega

/-- Settles O41: four products in their range add up to the range of the sum, and the extreme words reach its ends. -/
theorem accumulatorIsTheExactSumInRange : Obligations.AccumulatorIsTheExactSumInRange := by
  unfold Obligations.AccumulatorIsTheExactSumInRange
  refine ⟨?sum, ?products, ?lanes, ?ends⟩
  case sum => exact fun row act => ⟨dot_eq_sum row act, dot_bounds row act⟩
  case products => exact fun row act j => snib_mul_snib_bounds row act j j
  case lanes => exact fun _ _ _ _ _ _ => rfl
  case ends => decide

/-! ### The quantization shift -/

theorem natCast_shiftRight_eq_tdiv (n q : Nat) : ((n >>> q : Nat) : Int) = (n : Int).tdiv (2 ^ q) := by
  rw [Nat.shiftRight_eq_div_pow, Int.ofNat_tdiv, Nat.cast_pow, Nat.cast_ofNat]

/-- The shift of the magnitude under the sign of the accumulator is division toward zero (46_cim.md R206). -/
theorem quant_eq_tdiv (acc : Int) (q : Nat) : quant acc q = acc.tdiv (2 ^ q) := by
  unfold quant
  split
  · next hpos => rw [natCast_shiftRight_eq_tdiv, Int.toNat_of_nonneg hpos]
  · next hneg => rw [natCast_shiftRight_eq_tdiv, Int.toNat_of_nonneg (by omega), Int.neg_tdiv, neg_neg]

/-- Division toward zero corrects the floor by one, on the negative accumulators that are no multiple. -/
theorem quant_eq_floor_add (acc : Int) (q : Nat) :
    quant acc q = acc / 2 ^ q + if 0 ≤ acc ∨ (2 : Int) ^ q ∣ acc then 0 else 1 := by
  rw [quant_eq_tdiv, Int.tdiv_eq_ediv, Int.sign_eq_one_of_pos (by positivity)]

theorem quant_ne_floor_iff (acc : Int) (q : Nat) : quant acc q ≠ acc / 2 ^ q ↔ acc < 0 ∧ ¬((2 : Int) ^ q ∣ acc) := by
  rw [quant_eq_floor_add, ← not_le, ← not_or, ne_eq, not_iff_not, add_eq_left, ite_eq_left_iff]
  simp only [one_ne_zero, imp_false, not_not]

/-- A magnitude below the divisor leaves nothing. -/
theorem quant_eq_zero_of_natAbs_lt {acc : Int} {q : Nat} (h : acc.natAbs < 2 ^ q) : quant acc q = 0 := by
  have hshift : acc.natAbs >>> q = 0 := by rw [Nat.shiftRight_eq_div_pow, Nat.div_eq_of_lt h]
  unfold quant
  split
  · next hpos => rw [show acc.toNat = acc.natAbs by omega, hshift, Nat.cast_zero]
  · next hneg => rw [show (-acc).toNat = acc.natAbs by omega, hshift, Nat.cast_zero, neg_zero]

/-- Settles O42: `quant` as division toward zero, compared with the floor, and its value on accumulators in range, where
only 256 has a magnitude of `2^8`. -/
theorem quantizationTruncatesTowardZero : Obligations.QuantizationTruncatesTowardZero := by
  unfold Obligations.QuantizationTruncatesTowardZero
  refine ⟨quant_eq_tdiv, quant_ne_floor_iff, ?large, ?eight, ?examples⟩
  case large =>
    intro acc q hlo hhi hq
    have hpow : 2 ^ 9 ≤ 2 ^ q := Nat.pow_le_pow_right (by decide) hq
    exact quant_eq_zero_of_natAbs_lt (by omega)
  case eight =>
    intro acc hlo hhi
    split
    · next hend => rw [hend]; rfl
    · next hinside => exact quant_eq_zero_of_natAbs_lt (by omega)
  case examples => decide

/-! ### The lanes -/

theorem lane_toNat (row act : Word) (q : Nibble) :
    ((lane row act q).toNat : Int) = quant (dot row act) q.toNat % 16 := by
  rw [lane, BitVec.toNat_ofInt, Int.toNat_of_nonneg (Int.emod_nonneg _ (by decide))]
  rfl

theorem lane_toInt (row act : Word) (q : Nibble) : (lane row act q).toInt = (quant (dot row act) q.toNat).bmod 16 :=
  BitVec.toInt_ofInt _

/-- Lane 0 lies in bits 3:0 and lane 3 in bits 15:12 (46_cim.md R208): the lanes are the four fields of the word. -/
theorem nibble_cmptWord (rows : Fin 4 → Word) (act : Word) (q : Nibble) (k : Fin 4) :
    nibble (cmptWord (rows 0) (rows 1) (rows 2) (rows 3) act q) k = lane (rows k) act q :=
  match k with
  | 0 => rbField_nibbles _ _ _ _
  | 1 => extField_nibbles _ _ _ _
  | 2 => raField_nibbles _ _ _ _
  | 3 => opField_nibbles _ _ _ _

theorem State.nibble_cmptResult (s : State) (ra : Nibble) (k : Fin 4) :
    nibble (s.cmptResult ra) k = lane (s.row (cmptRow ra k)) (s.reg ra) s.q :=
  nibble_cmptWord (fun j => s.row (cmptRow ra j)) (s.reg ra) s.q k

theorem cmptRow_eq_of_toNat {ra r : Nibble} {k : Fin 4} (h : r.toNat = ra.toNat % 4 + 4 * k.val) : cmptRow ra k = r :=
  BitVec.eq_of_toNat_eq ((cmptRow_toNat ra k).trans h.symm)

/-- Settles O43: nibble `k` of the packed word is lane `k`, whose value is known unsigned and signed; in a CMPT the first and
the last lane take the rows at the two ends of `cmptRow`. -/
theorem lanesWrapAndPackInOrder : Obligations.LanesWrapAndPackInOrder := by
  unfold Obligations.LanesWrapAndPackInOrder
  constructor
  · intro rows act q k
    rw [snib, nibble_cmptWord]
    exact ⟨lane_toNat (rows k) act q, lane_toInt (rows k) act q⟩
  · intro s ra first last hfirst hlast
    rw [← cmptRow_eq_of_toNat (k := 0) hfirst, ← cmptRow_eq_of_toNat (k := 3) hlast]
    exact ⟨s.nibble_cmptResult ra 0, s.nibble_cmptResult ra 3⟩

/-! ### The word CMPT stores -/

/-- What CMPT answers at its effective address (46_cim.md R204). -/
theorem exec_cmpt_stores (ra rb : Nibble) (s : State) :
    ∃ t, exec (.cmpt ra rb) s = .next t ∧ t.memRead (s.ea rb) = s.cmptResult ra := by
  obtain ⟨hslot, -⟩ := s.store_spec (s.ea rb) (s.cmptResult ra)
  exact ⟨_, exec_cmpt ra rb s, hslot⟩

/-- The result reads a state through the four rows, the activation word and `Q` (46_cim.md R210). -/
theorem State.cmptResult_eq_cmptWord {s : State} {ra : Nibble} {rows : Fin 4 → Word} {act : Word} {q : Nibble}
    (hrows : ∀ k, s.row (cmptRow ra k) = rows k) (hact : s.reg ra = act) (hq : s.q = q) :
    s.cmptResult ra = cmptWord (rows 0) (rows 1) (rows 2) (rows 3) act q := by
  rw [State.cmptResult, hrows, hrows, hrows, hrows, hact, hq]

/-- Settles O44: both states store the `cmptWord` of the inputs they agree on. -/
theorem cmptStoresAPureFunctionOfItsInputs : Obligations.CmptStoresAPureFunctionOfItsInputs := by
  unfold Obligations.CmptStoresAPureFunctionOfItsInputs
  intro s s' ra ra' rb rb' hrows hact hq
  obtain ⟨t, hexec, hslot⟩ := exec_cmpt_stores ra rb s
  obtain ⟨t', hexec', hslot'⟩ := exec_cmpt_stores ra' rb' s'
  have hresult : s.cmptResult ra = s'.cmptResult ra' :=
    State.cmptResult_eq_cmptWord (rows := fun k => s'.row (cmptRow ra' k)) hrows hact hq
  exact ⟨t, t', hexec, hexec', hslot.trans (hresult.trans hslot'.symm)⟩

/-- Settles O45: every lane of the worked example adds four products of 1 by 1. -/
theorem cmptWorkedExample : Obligations.CmptWorkedExample := by
  unfold Obligations.CmptWorkedExample
  intro s ra rb hact hq hrows
  obtain ⟨t, hexec, hslot⟩ := exec_cmpt_stores ra rb s
  have hresult : s.cmptResult ra = cmptWord 0x1111 0x1111 0x1111 0x1111 0x1111 0 :=
    State.cmptResult_eq_cmptWord (rows := fun _ => 0x1111) hrows hact hq
  have hword : cmptWord 0x1111 0x1111 0x1111 0x1111 0x1111 0 = 0x4444 := by decide
  exact ⟨t, hexec, by rw [hslot, hresult, hword]⟩

end Sys2Proof.Machine
end

section
/-!
PROOFS. Encoding (30_encoding.md): words and their fields, and which words a format selects, in terms of the fields.
-/

namespace Sys2Proof

/-! ### Words put together from fields -/

theorem nibbles_inj {a b c d a' b' c' d' : Nibble} :
    nibbles a b c d = nibbles a' b' c' d' ↔ a = a' ∧ b = b' ∧ c = c' ∧ d = d' := by
  refine ⟨fun h => ⟨?op, ?ra, ?ext, ?rb⟩, by rintro ⟨rfl, rfl, rfl, rfl⟩; rfl⟩
  case op => simpa using congrArg opField h
  case ra => simpa using congrArg raField h
  case ext => simpa using congrArg extField h
  case rb => simpa using congrArg rbField h

theorem nibbles_and (a b c d a' b' c' d' : Nibble) :
    nibbles a b c d &&& nibbles a' b' c' d' = nibbles (a &&& a') (b &&& b') (c &&& c') (d &&& d') := by
  have hab : (a ++ b) &&& (a' ++ b') = (a &&& a') ++ (b &&& b') := BitVec.and_append
  have habc : (a ++ b ++ c) &&& (a' ++ b' ++ c') = (a &&& a') ++ (b &&& b') ++ (c &&& c') :=
    BitVec.and_append.trans (by rw [hab])
  exact BitVec.and_append.trans (by rw [habc]; rfl)

theorem and_nibbles (w : Word) (a b c d : Nibble) :
    w &&& nibbles a b c d = nibbles (opField w &&& a) (raField w &&& b) (extField w &&& c) (rbField w &&& d) := by
  rw [← nibbles_and, nibbles_fields]

@[simp] theorem nibble_and_15 (a : Nibble) : a &&& 15#4 = a := BitVec.and_allOnes

@[simp] theorem hiNibble_imm8Field (w : Word) : hiNibble (imm8Field w) = extField w := by
  simp [hiNibble, imm8Field, extField]

@[simp] theorem loNibble_imm8Field (w : Word) : loNibble (imm8Field w) = rbField w := by
  simp [loNibble, imm8Field, rbField]

theorem imm8Field_nibbles_byte (a b : Nibble) (v : Byte) : imm8Field (nibbles a b (hiNibble v) (loNibble v)) = v :=
  (imm8Field_nibbles a b _ _).trans (hi_append_lo v)

theorem signField_eq_bit (w : Word) : signField w = (extField w).getLsbD 0 := by
  simp [signField, extField]

theorem top12Field_append (t : Bits12) (v : Nibble) : top12Field (t ++ v) = t := BitVec.extractLsb'_append_eq_left

theorem rbField_append (t : Bits12) (v : Nibble) : rbField (t ++ v) = v := BitVec.extractLsb'_append_eq_right

theorem top12Field_append_rbField (w : Word) : (top12Field w ++ rbField w : BitVec (12 + 4)) = w :=
  BitVec.extractLsb'_append_extractLsb'

/-! ### The words a format selects (30_encoding.md R55) -/

theorem Format.selects_iff {strict : Bool} {fmt : Format} {w : Word} :
    fmt.selects strict w = true ↔ ∃ m v, fmt.mask strict = some m ∧ fmt.matchBits = some v ∧ w &&& m = v := by
  unfold Format.selects
  split
  · next m v hm hv =>
    simp only [hm, hv, Option.some.injEq, beq_iff_eq]
    exact ⟨fun h => ⟨m, v, rfl, rfl, h⟩, by rintro ⟨_, _, rfl, rfl, h⟩; exact h⟩
  · next hnone => exact iff_of_false Bool.false_ne_true fun ⟨m, v, hm, hv, _⟩ => hnone m v hm hv

theorem and_F0F0_eq_iff (w : Word) (op ext : Nibble) :
    w &&& 0xF0F0#16 = nibbles op 0 ext 0 ↔ opField w = op ∧ extField w = ext := by
  rw [show 0xF0F0#16 = nibbles 0xF 0 0xF 0 from rfl, and_nibbles, nibbles_inj]
  simp

theorem and_FFF0_eq_iff (w : Word) (op ext : Nibble) :
    w &&& 0xFFF0#16 = nibbles op 0 ext 0 ↔ opField w = op ∧ raField w = 0 ∧ extField w = ext := by
  rw [show 0xFFF0#16 = nibbles 0xF 0xF 0xF 0 from rfl, and_nibbles, nibbles_inj]
  simp

theorem and_F000_eq_iff (w : Word) (op : Nibble) : w &&& 0xF000#16 = nibbles op 0 0 0 ↔ opField w = op := by
  rw [show 0xF000#16 = nibbles 0xF 0 0 0 from rfl, and_nibbles, nibbles_inj]
  simp

theorem and_F0E0_eq_iff (w : Word) (op : Nibble) :
    w &&& 0xF0E0#16 = nibbles op 0 0 0 ↔ opField w = op ∧ extField w &&& 0xE = 0 := by
  rw [show 0xF0E0#16 = nibbles 0xF 0 0xE 0 from rfl, and_nibbles, nibbles_inj]
  simp

theorem and_FFF0_eq_append_iff (w : Word) (t : Bits12) : w &&& 0xFFF0#16 = t ++ 0#4 ↔ top12Field w = t := by
  have hand : w &&& 0xFFF0#16 = top12Field w ++ 0#4 := by
    rw [show 0xFFF0#16 = (0xFFF#12 ++ 0#4 : BitVec (12 + 4)) from rfl]
    conv_lhs => rw [← top12Field_append_rbField w]
    have hmask : top12Field w &&& 0xFFF#12 = top12Field w := BitVec.and_allOnes
    exact BitVec.and_append.trans (by rw [hmask, BitVec.and_zero])
  rw [hand]
  refine ⟨fun h => ?_, by rintro rfl; rfl⟩
  rw [← top12Field_append t 0#4, ← h, top12Field_append]

section
variable {strict : Bool} {w : Word}

theorem selects_rr {op ext : Nibble} :
    (Format.rr op ext).selects strict w = true ↔ opField w = op ∧ extField w = ext := by
  simp only [Format.selects, Format.mask, Format.matchBits, beq_iff_eq, and_F0F0_eq_iff]

theorem selects_rs {op ext : Nibble} :
    (Format.rs op ext).selects strict w = true ↔ opField w = op ∧ extField w = ext := selects_rr (strict := strict)

theorem selects_jcond {op ext : Nibble} :
    (Format.jcond op ext).selects strict w = true ↔ opField w = op ∧ extField w = ext := selects_rr (strict := strict)

theorem selects_i4 {op ext : Nibble} :
    (Format.i4 op ext).selects strict w = true ↔
      opField w = op ∧ extField w = ext ∧ (strict = true → raField w = 0) := by
  cases strict
  · rw [show (Format.i4 op ext).selects false w = (Format.rr op ext).selects false w from rfl, selects_rr]
    simp
  · rw [show (Format.i4 op ext).selects true w = (w &&& 0xFFF0#16 == nibbles op 0 ext 0) from rfl, beq_iff_eq,
      and_FFF0_eq_iff]
    simp [and_comm]

theorem selects_ri {op : Nibble} : (Format.ri op).selects strict w = true ↔ opField w = op := by
  simp only [Format.selects, Format.mask, Format.matchBits, beq_iff_eq, and_F000_eq_iff]

theorem selects_ir {op : Nibble} : (Format.ir op).selects strict w = true ↔ opField w = op :=
  selects_ri (strict := strict)

theorem selects_bcond {op : Nibble} : (Format.bcond op).selects strict w = true ↔ opField w = op :=
  selects_ri (strict := strict)

theorem selects_ri4 {op : Nibble} :
    (Format.ri4 op).selects strict w = true ↔ opField w = op ∧ (strict = true → extField w &&& 0xE = 0) := by
  cases strict
  · rw [show (Format.ri4 op).selects false w = (Format.ri op).selects false w from rfl, selects_ri]
    simp
  · rw [show (Format.ri4 op).selects true w = (w &&& 0xF0E0#16 == nibbles op 0 0 0) from rfl, beq_iff_eq,
      and_F0E0_eq_iff]
    simp

theorem selects_fix {v : Word} : (Format.fix v).selects strict w = true ↔ w = v := by
  rw [show (Format.fix v).selects strict w = (w &&& 0xFFFF#16 == v) from rfl, beq_iff_eq]
  rw [show w &&& 0xFFFF#16 = w from BitVec.and_allOnes]

theorem selects_fixv {t : Bits12} : (Format.fixv t).selects strict w = true ↔ top12Field w = t := by
  simp only [Format.selects, Format.mask, Format.matchBits, beq_iff_eq, and_FFF0_eq_append_iff]

end

end Sys2Proof
end

section
/-!
PROOFS. The packer and the extractor (40_encoder.md R80 to R93; 41_decoder.md R115): each undoes the other on the words that
the format selects, up to the bits the extractor drops.
-/

namespace Sys2Proof

theorem extract_tag {fmt : Format} (h : fmt.tag.supported = true) (w : Word) : (extract fmt w).tag = fmt.tag := by
  cases fmt with
  | other name => cases h
  | _ => rfl

/-- The packer answers a word for every record of its format's shape (40_encoder.md R92 (a)); the word is selected by the
format, and the extractor gives the record back (41_decoder.md R125). -/
theorem packWires_spec (strict : Bool) {fmt : Format} {f : Fields} (h : f.tag = fmt.tag) :
    ∃ w, packWires fmt f.wires = .ok w ∧ fmt.selects strict w = true ∧ extract fmt w = f := by
  match fmt, f, h with
  | .rr op ext, .rr ra rb, _ => exact ⟨_, rfl, by simp [selects_rr], by simp [extract, Fields.wires]⟩
  | .rs op ext, .rs ra rb, _ => exact ⟨_, rfl, by simp [selects_rs], by simp [extract, Fields.wires]⟩
  | .jcond op ext, .jcond c rb, _ => exact ⟨_, rfl, by simp [selects_jcond], by simp [extract, Fields.wires]⟩
  | .i4 op ext, .i4 imm4, _ => exact ⟨_, rfl, by simp [selects_i4], by simp [extract, Fields.wires]⟩
  | .ri op, .ri ra imm8, _ =>
    exact ⟨_, rfl, by simp [selects_ri], by simp [extract, Fields.wires, imm8Field_nibbles_byte]⟩
  | .ir op, .ir ra imm8, _ =>
    exact ⟨_, rfl, by simp [selects_ir], by simp [extract, Fields.wires, imm8Field_nibbles_byte]⟩
  | .bcond op, .bcond c disp, _ =>
    exact ⟨_, rfl, by simp [selects_bcond], by simp [extract, Fields.wires, imm8Field_nibbles_byte]⟩
  | .ri4 op, .ri4 ra sgn mag, _ =>
    refine ⟨_, rfl, ?_, ?_⟩
    · cases sgn <;> simp [selects_ri4, Fields.wires]
    · cases sgn <;> simp [extract, Fields.wires, signField_eq_bit]
  | .fix v, .fix, _ => exact ⟨v, rfl, selects_fix.mpr rfl, rfl⟩
  | .fixv t, .fixv vec, _ =>
    exact ⟨_, rfl, selects_fixv.mpr (top12Field_append t vec), congrArg Fields.fixv (rbField_append t vec)⟩

/-- The bits of a word that the extractor drops (41_decoder.md R127), set to zero: bits 7:5 of an RI4 word and bits 11:8 of
an I4 word. -/
def Format.clearDropped (fmt : Format) (w : Word) : Word :=
  match fmt with
  | .ri4 _ => w &&& 0xFF1F#16
  | .i4 _ _ => w &&& 0xF0FF#16
  | _ => w

theorem signNibble_of_strict : ∀ n : Nibble, n &&& 0xE = 0 → n &&& 1 = n := by decide

theorem signNibble_eq_and_one : ∀ n : Nibble, (0#3 ++ BitVec.ofBool (n.getLsbD 0) : BitVec 4) = n &&& 1 := by decide

theorem and_FF1F (w : Word) : w &&& 0xFF1F#16 = nibbles (opField w) (raField w) (extField w &&& 1) (rbField w) := by
  rw [show 0xFF1F#16 = nibbles 0xF 0xF 1 0xF from rfl, and_nibbles]
  simp

theorem and_F0FF (w : Word) : w &&& 0xF0FF#16 = nibbles (opField w) 0 (extField w) (rbField w) := by
  rw [show 0xF0FF#16 = nibbles 0xF 0 0xF 0xF from rfl, and_nibbles]
  simp

/-- The words a format selects under strict zero bits are among those it selects without, and have no bit that the extractor
drops. -/
theorem selects_of_strict {fmt : Format} {w : Word} (h : fmt.selects true w = true) :
    fmt.selects false w = true ∧ fmt.clearDropped w = w := by
  cases fmt with
  | ri4 op =>
    obtain ⟨hop, hext⟩ := selects_ri4.mp h
    refine ⟨selects_ri4.mpr ⟨hop, nofun⟩, ?_⟩
    rw [Format.clearDropped, and_FF1F, signNibble_of_strict _ (hext rfl), nibbles_fields]
  | i4 op ext =>
    obtain ⟨hop, hext, hra⟩ := selects_i4.mp h
    refine ⟨selects_i4.mpr ⟨hop, hext, nofun⟩, ?_⟩
    rw [Format.clearDropped, and_F0FF, ← hra rfl, nibbles_fields]
  | _ => exact ⟨h, rfl⟩

/-- Packing what was extracted from a selected word (41_decoder.md R127). -/
theorem packWires_extract {fmt : Format} {w : Word} (h : fmt.selects false w = true) :
    packWires fmt (extract fmt w).wires = .ok (fmt.clearDropped w) := by
  cases fmt with
  | rr op ext =>
    obtain ⟨rfl, rfl⟩ := selects_rr.mp h
    exact congrArg Except.ok (nibbles_fields w)
  | rs op ext =>
    obtain ⟨rfl, rfl⟩ := selects_rs.mp h
    exact congrArg Except.ok (nibbles_fields w)
  | jcond op ext =>
    obtain ⟨rfl, rfl⟩ := selects_jcond.mp h
    exact congrArg Except.ok (nibbles_fields w)
  | i4 op ext =>
    obtain ⟨rfl, rfl, -⟩ := selects_i4.mp h
    exact congrArg Except.ok (and_F0FF w).symm
  | ri op =>
    obtain rfl := selects_ri.mp h
    simp [packWires, extract, Fields.wires, Format.clearDropped, nibbles_fields]
  | ir op =>
    obtain rfl := selects_ir.mp h
    simp [packWires, extract, Fields.wires, Format.clearDropped, nibbles_fields]
  | bcond op =>
    obtain rfl := selects_bcond.mp h
    simp [packWires, extract, Fields.wires, Format.clearDropped, nibbles_fields]
  | ri4 op =>
    obtain ⟨rfl, -⟩ := selects_ri4.mp h
    simp only [packWires, extract, Fields.wires, Format.clearDropped, signField_eq_bit, signNibble_eq_and_one, and_FF1F]
  | fix v => rw [selects_fix.mp h]; rfl
  | fixv t =>
    obtain rfl := selects_fixv.mp h
    exact congrArg Except.ok (top12Field_append_rbField w)
  | other name => cases h

theorem packWires_extract_of_strict {fmt : Format} {w : Word} (h : fmt.selects true w = true) :
    packWires fmt (extract fmt w).wires = .ok w := by
  obtain ⟨hsel, hclear⟩ := selects_of_strict h
  rw [packWires_extract hsel, hclear]

theorem Format.supported_of_selects {strict : Bool} {fmt : Format} {w : Word} (h : fmt.selects strict w = true) :
    fmt.tag.supported = true := by
  cases fmt with
  | other name => cases h
  | _ => rfl

/-! ### The obligations on the packer -/

/-- Settles O5: all four parts are the packer and the extractor as inverses of each other, on the selected words. -/
theorem packIsTotalInjectiveAndExact : Obligations.PackIsTotalInjectiveAndExact := by
  unfold Obligations.PackIsTotalInjectiveAndExact
  refine ⟨?total, ?injective, ?selected, ?exactly⟩
  case total =>
    intro d f hf
    obtain ⟨w, hpack, -, -⟩ := packWires_spec true hf
    exact ⟨w, hpack⟩
  case injective =>
    intro d f g hf hg heq
    obtain ⟨w, hpack, -, hextract⟩ := packWires_spec true hf
    obtain ⟨w', hpack', -, hextract'⟩ := packWires_spec true hg
    have hw : w = w' := Except.ok.inj (hpack.symm.trans (heq.trans hpack'))
    rw [← hextract, hw, hextract']
  case selected =>
    intro strict d f w hf hpack
    obtain ⟨w', hpack', hsel, -⟩ := packWires_spec strict hf
    rw [Except.ok.inj (hpack.symm.trans hpack')]
    exact Format.selects_iff.mp hsel
  case exactly =>
    intro d w _
    constructor
    · intro hsel
      exact ⟨extract d.format w, extract_tag (Format.supported_of_selects hsel) w, packWires_extract_of_strict hsel⟩
    · rintro ⟨f, hf, hpack⟩
      obtain ⟨w', hpack', hsel, -⟩ := packWires_spec true hf
      rwa [Except.ok.inj (hpack.symm.trans hpack')]

theorem byte_toNat (v : Byte) : (hiNibble v).toNat * 16 + (loNibble v).toNat = v.toNat := by
  have hv := v.isLt
  simp only [hiNibble, loNibble, BitVec.extractLsb'_toNat, Nat.shiftRight_eq_div_pow]
  omega

theorem nibbles_byte_toNat (a b : Nibble) (v : Byte) :
    (nibbles a b (hiNibble v) (loNibble v)).toNat = a.toNat * 4096 + b.toNat * 256 + v.toNat := by
  rw [nibbles_toNat, add_assoc _ ((hiNibble v).toNat * 16), byte_toNat]

theorem append_nibble_toNat (t : Bits12) (v : Nibble) : (t ++ v : BitVec (12 + 4)).toNat = t.toNat * 16 + v.toNat := by
  rw [BitVec.toNat_append, ← Nat.shiftLeft_add_eq_or_of_lt v.isLt, Nat.shiftLeft_eq]

/-- Settles O6: each of the wirings puts the word together from nibbles, from nibbles and a byte, or from 12 bits and a
nibble, and the value of such a word is the sum of the shifted parts. -/
theorem packIsTheSumOfItsShiftedFields : Obligations.PackIsTheSumOfItsShiftedFields := by
  unfold Obligations.PackIsTheSumOfItsShiftedFields
  intro name tag op ext a b imm8 sgn w0 t
  refine ⟨⟨_, rfl, nibbles_toNat op a ext b⟩, ⟨_, rfl, nibbles_toNat op a ext b⟩, ⟨_, rfl, nibbles_toNat op a ext b⟩,
    ⟨_, rfl, ?imm4⟩, ⟨_, rfl, nibbles_byte_toNat op a imm8⟩, ⟨_, rfl, nibbles_byte_toNat op a imm8⟩,
    ⟨_, rfl, nibbles_byte_toNat op a imm8⟩, ⟨_, rfl, ?signMag⟩, rfl, ⟨_, rfl, append_nibble_toNat t b⟩, fun _ => rfl⟩
  case imm4 =>
    have hsum := nibbles_toNat op 0 ext b
    rw [show (0 : Nibble).toNat = 0 from rfl, Nat.zero_mul, Nat.add_zero] at hsum
    exact hsum
  case signMag =>
    have hsign : (0#3 ++ BitVec.ofBool sgn : BitVec (3 + 1)).toNat * 16 = if sgn then 16 else 0 := by
      cases sgn <;> rfl
    rw [← hsign]
    exact nibbles_toNat op a _ b

end Sys2Proof
end

section
/-!
PROOFS. The decoder (41_decoder.md R110 to R117, R125, R127): what its three stages amount to, and the decoder of a strongly
well-formed registry (30_encoding.md R54).
-/

namespace Sys2Proof

/-! ### The decoder -/

/-- A descriptor that one of the three stages finds selects the word. -/
theorem selects_of_fixStage {strict : Bool} {w : Word} {d : Descriptor} (h : fixStage w d = true) :
    d.format.selects strict w = true := by
  unfold fixStage at h
  split at h
  · next v hfmt => rw [hfmt, selects_fix]; exact eq_of_beq h
  · cases h

theorem selects_of_fixvStage {strict : Bool} {w : Word} {d : Descriptor} (h : fixvStage w d = true) :
    d.format.selects strict w = true := by
  unfold fixvStage at h
  split at h
  · next v hfmt => rw [hfmt, selects_fixv]; exact eq_of_beq h
  · cases h

theorem selects_of_opcodeStage {strict : Bool} {w : Word} {d : Descriptor} (h : opcodeStage strict w d = true) :
    d.format.selects strict w = true := by
  unfold opcodeStage at h
  split at h
  · cases h
  · cases h
  · exact h

/-- A descriptor that selects the word is found by the stage of its tag. -/
theorem stage_of_selects {strict : Bool} {w : Word} {d : Descriptor} (h : d.format.selects strict w = true) :
    fixStage w d = true ∨ fixvStage w d = true ∨ opcodeStage strict w d = true := by
  cases hfmt : d.format with
  | fix v =>
    rw [hfmt, selects_fix] at h
    exact .inl (by simp [fixStage, hfmt, h])
  | fixv t =>
    rw [hfmt, selects_fixv] at h
    exact .inr (.inl (by simp [fixvStage, hfmt, h]))
  | _ => exact .inr (.inr (by simpa [opcodeStage, hfmt] using h))

/-- What the three stages of the decoder amount to: a descriptor of the registry that selects the word, or none does. -/
theorem decode_cases (reg : Registry) (strict : Bool) (w : Word) :
    (∃ d ∈ reg, d.format.selects strict w = true ∧ decode reg strict w = .recognized d (extract d.format w)) ∨
    ((∀ d ∈ reg, d.format.selects strict w = false) ∧ decode reg strict w = .unrecognized w) := by
  unfold decode
  split
  · next d hd => exact .inl ⟨d, List.mem_of_find?_eq_some hd, selects_of_fixStage (List.find?_some hd), rfl⟩
  · next hfix =>
    split
    · next d hd => exact .inl ⟨d, List.mem_of_find?_eq_some hd, selects_of_fixvStage (List.find?_some hd), rfl⟩
    · next hfixv =>
      split
      · next d hd => exact .inl ⟨d, List.mem_of_find?_eq_some hd, selects_of_opcodeStage (List.find?_some hd), rfl⟩
      · next hop =>
        refine .inr ⟨fun d hd => Bool.eq_false_iff.mpr fun hsel => ?_, rfl⟩
        obtain h | h | h := stage_of_selects hsel
        · exact List.find?_eq_none.mp hfix d hd h
        · exact List.find?_eq_none.mp hfixv d hd h
        · exact List.find?_eq_none.mp hop d hd h

theorem decode_recognized {reg : Registry} {strict : Bool} {w : Word} {d : Descriptor} {f : Fields}
    (h : decode reg strict w = .recognized d f) :
    d ∈ reg ∧ d.format.selects strict w = true ∧ f = extract d.format w := by
  obtain ⟨d', hmem, hsel, hdec⟩ | ⟨-, hdec⟩ := decode_cases reg strict w
  · rw [hdec] at h
    cases h
    exact ⟨hmem, hsel, rfl⟩
  · rw [hdec] at h
    cases h

theorem decode_unrecognized_iff {reg : Registry} {strict : Bool} {w : Word} :
    decode reg strict w = .unrecognized w ↔ ∀ d ∈ reg, d.format.selects strict w = false := by
  obtain ⟨d, hmem, hsel, hdec⟩ | ⟨hnone, hdec⟩ := decode_cases reg strict w
  · refine iff_of_false (by rw [hdec]; nofun) fun hnone => ?_
    rw [hnone d hmem] at hsel
    cases hsel
  · exact iff_of_true hdec hnone

/-- A descriptor of the registry that alone selects the word is the one decoded, at whatever place and stage. -/
theorem decode_of_selects_alone {reg : Registry} {strict : Bool} {w : Word} {d : Descriptor} (hmem : d ∈ reg)
    (hsel : d.format.selects strict w = true) (halone : ∀ e ∈ reg, e.format.selects strict w = true → e = d) :
    decode reg strict w = .recognized d (extract d.format w) := by
  obtain ⟨e, hmem', hsel', hdec⟩ | ⟨hnone, -⟩ := decode_cases reg strict w
  · rw [hdec, halone e hmem' hsel']
  · rw [hnone d hmem] at hsel
    cases hsel

/-! ### Strongly well-formed registries (30_encoding.md R54) -/

theorem pairwiseB_iff {α : Type} (rel : α → α → Bool) (l : List α) :
    pairwiseB rel l = true ↔ l.Pairwise (fun a b => rel a b = true) := by
  induction l with
  | nil => simp [pairwiseB]
  | cons x xs ih => simp [pairwiseB, ih]

/-- The test of WF5 does what it says: two formats that pass it select no common word. -/
theorem not_both_select_of_disjoint {strict : Bool} {a b : Format} (h : disjointFormats strict a b = true) {w : Word}
    (ha : a.selects strict w = true) (hb : b.selects strict w = true) : False := by
  obtain ⟨m, _, hm, hv, rfl⟩ := Format.selects_iff.mp ha
  obtain ⟨m', _, hm', hv', rfl⟩ := Format.selects_iff.mp hb
  have hzero : ((w &&& m) ^^^ (w &&& m')) &&& m &&& m' = 0#16 := by
    apply BitVec.eq_of_getLsbD_eq
    intro i _
    simp only [BitVec.getLsbD_and, BitVec.getLsbD_xor, BitVec.getLsbD_zero]
    cases w.getLsbD i <;> cases m.getLsbD i <;> cases m'.getLsbD i <;> rfl
  simp only [disjointFormats, hm, hv, hm', hv', hzero] at h
  exact absurd h (by decide)

/-- Under WF5 at most one descriptor of the registry selects a word. -/
theorem eq_of_selects_of_wf5 {strict : Bool} {reg : Registry} (h : wf5 strict reg = true) {d e : Descriptor} {w : Word}
    (hd : d ∈ reg) (he : e ∈ reg) (hdw : d.format.selects strict w = true) (hew : e.format.selects strict w = true) :
    e = d := by
  have hpairs : reg.Pairwise (fun d e => ¬(d.format.selects strict w = true ∧ e.format.selects strict w = true)) :=
    ((pairwiseB_iff _ reg).mp h).imp fun hdisj ⟨ha, hb⟩ => not_both_select_of_disjoint hdisj ha hb
  have hsymm : Std.Symm (fun d e : Descriptor =>
      ¬(d.format.selects strict w = true ∧ e.format.selects strict w = true)) := ⟨fun _ _ hnot hba => hnot hba.symm⟩
  by_contra hne
  exact hpairs.forall he hd hne ⟨hew, hdw⟩

theorem wf5_of_strong {strict : Bool} {reg : Registry} (h : registryStrong strict reg = true) : wf5 strict reg = true := by
  rw [registryStrong, Bool.and_eq_true] at h
  exact h.2

theorem decode_of_selects {strict : Bool} {reg : Registry} (h : registryStrong strict reg = true) {d : Descriptor}
    (hd : d ∈ reg) {w : Word} (hsel : d.format.selects strict w = true) :
    decode reg strict w = .recognized d (extract d.format w) :=
  decode_of_selects_alone hd hsel fun _ he hew => eq_of_selects_of_wf5 (wf5_of_strong h) hd he hsel hew

/-- Settles O1: the packed word is selected by its descriptor, which a strong registry then decodes, and the extractor gives
the record back. -/
theorem decodeOfPackIsRecognizedInEveryStrongRegistry : Obligations.DecodeOfPackIsRecognizedInEveryStrongRegistry := by
  unfold Obligations.DecodeOfPackIsRecognizedInEveryStrongRegistry
  intro strict reg hstrong d hd f htag
  obtain ⟨w, hpack, hsel, hextract⟩ := packWires_spec strict htag
  exact ⟨w, hpack, by rw [decode_of_selects hstrong hd hsel, hextract]⟩

/-- Settles O4: a recognized word is selected by its descriptor, and packing what was extracted restores all bits but those
the extractor drops. -/
theorem repackOfDecodedWord : Obligations.RepackOfDecodedWord := by
  unfold Obligations.RepackOfDecodedWord
  intro reg w d f
  constructor
  · intro h
    obtain ⟨-, hsel, rfl⟩ := decode_recognized h
    exact packWires_extract_of_strict hsel
  · intro h
    obtain ⟨-, hsel, rfl⟩ := decode_recognized h
    refine (packWires_extract hsel).trans (congrArg Except.ok ?_)
    cases d.format <;> rfl

/-! ### Registries in general -/

/-- A format with a mask selects some word. -/
theorem Format.exists_selects (strict : Bool) {fmt : Format} (h : fmt.tag.supported = true) :
    ∃ w, fmt.selects strict w = true := by
  obtain ⟨w, -, hsel, -⟩ := packWires_spec strict (extract_tag h 0)
  exact ⟨w, hsel⟩

/-- Overlapping fixed patterns in the sense of WF2 select a common word. -/
theorem fixedApart_of_disjoint {strict : Bool} {a b : Format} (h : disjointFormats strict a b = true) :
    fixedApart a b = true := by
  unfold fixedApart
  split
  · next v v' =>
    rw [bne_iff_ne]
    rintro rfl
    exact not_both_select_of_disjoint h (selects_fix.mpr rfl) (selects_fix.mpr rfl)
  · next t t' =>
    rw [bne_iff_ne]
    rintro rfl
    obtain ⟨w, hw⟩ := Format.exists_selects strict (fmt := .fixv t) rfl
    exact not_both_select_of_disjoint h hw hw
  · next v t =>
    rw [bne_iff_ne]
    intro ht
    exact not_both_select_of_disjoint h (selects_fix.mpr rfl) (selects_fixv.mpr ht)
  · next t v =>
    rw [bne_iff_ne]
    intro ht
    exact not_both_select_of_disjoint h (selects_fixv.mpr ht) (selects_fix.mpr rfl)
  · rfl

/-- A format with an opcode is its triple (30_encoding.md R53, WF3). -/
theorem Format.eq_of_triple {a b : Format} {p : Nibble} (ha : a.op? = some p) (hb : b.op? = some p)
    (htag : a.tag = b.tag) (hext : a.ext? = b.ext?) : a = b := by
  cases a <;> cases b <;> cases htag <;> cases ha <;> cases hb <;> cases hext <;> rfl

theorem Format.supported_of_op {a : Format} {p : Nibble} (ha : a.op? = some p) : a.tag.supported = true := by
  cases a with
  | other name => cases ha
  | _ => rfl

/-- Two rows with the same triple are the same format, which selects some word. -/
theorem tripleApart_of_disjoint {strict : Bool} {a b : Format} (h : disjointFormats strict a b = true) :
    tripleApart a b = true := by
  unfold tripleApart
  split
  · next p q hp hq =>
    rw [Bool.not_eq_true', Bool.eq_false_iff]
    intro hsame
    simp only [Bool.and_eq_true, beq_iff_eq] at hsame
    obtain ⟨⟨rfl, htag⟩, hext⟩ := hsame
    obtain rfl := Format.eq_of_triple hp hq htag hext
    obtain ⟨w, hw⟩ := Format.exists_selects strict (Format.supported_of_op hp)
    exact not_both_select_of_disjoint h hw hw
  · rfl

theorem wf2_and_wf3_of_wf5 {strict : Bool} {reg : Registry} (h : wf5 strict reg = true) : wf2 reg = true ∧ wf3 reg = true := by
  have hpairs := (pairwiseB_iff _ reg).mp h
  exact ⟨(pairwiseB_iff _ reg).mpr (hpairs.imp fixedApart_of_disjoint),
    (pairwiseB_iff _ reg).mpr (hpairs.imp tripleApart_of_disjoint)⟩

theorem decode_perm {strict : Bool} {reg reg' : Registry} (h : registryStrong strict reg = true) (hperm : reg.Perm reg')
    (w : Word) : decode reg strict w = decode reg' strict w := by
  obtain ⟨d, hd, hsel, hdec⟩ | ⟨hnone, hdec⟩ := decode_cases reg strict w
  · rw [hdec]
    exact (decode_of_selects_alone (hperm.mem_iff.mp hd) hsel fun e he hew =>
      eq_of_selects_of_wf5 (wf5_of_strong h) hd (hperm.mem_iff.mpr he) hsel hew).symm
  · rw [hdec]
    exact (decode_unrecognized_iff.mpr fun e he => hnone e (hperm.mem_iff.mpr he)).symm

theorem regDefault_strong : registryStrong true regDefault = true := by decide

/-- Settles O7: a strong registry selects every word by at most one descriptor, so neither order nor stage matters. -/
theorem strongRegistryDecodesIndependentlyOfOrder : Obligations.StrongRegistryDecodesIndependentlyOfOrder := by
  unfold Obligations.StrongRegistryDecodesIndependentlyOfOrder
  refine ⟨fun _ _ => wf2_and_wf3_of_wf5, fun _ _ _ => decode_perm, fun _ _ hstrong _ hd _ => decode_of_selects hstrong hd,
    regDefault_strong, ?_, ?_⟩
  · decide
  · decide

end Sys2Proof
end

section
/-!
PROOFS. `REG_DEFAULT` (30_encoding.md R60 to R62): the words of its instructions, the words encoded from operands, the words
it leaves unassigned.
-/

namespace Sys2Proof

/-! ### The instructions of `REG_DEFAULT` -/

theorem Cond.ofCode_code (c : Cond) : Cond.ofCode c.code = c := by cases c <;> rfl

theorem mem_mnemonicAll (m : Mnemonic) : m ∈ mnemonicAll := by cases m <;> decide

theorem mnemonicOf_name (m : Mnemonic) : mnemonicOf m.name = some m := by cases m <;> rfl

theorem lookup_regDefault (m : Mnemonic) : lookup regDefault m.name = .ok m.descriptor := by cases m <;> rfl

theorem descriptor_mem_regDefault (m : Mnemonic) : m.descriptor ∈ regDefault := List.mem_map_of_mem (mem_mnemonicAll m)

theorem Instr.fields_tag (i : Instr) : i.fields.tag = i.mnemonic.format.tag := by cases i <;> rfl

/-- Dispatch on the mnemonic reads the fields of an instruction back (45_control.md R177). -/
theorem build_fields (i : Instr) : i.mnemonic.build i.fields = some i := by
  cases i with
  | bcond c disp => exact congrArg (fun c => some (Instr.bcond c disp)) c.ofCode_code
  | jcond c rb => exact congrArg (fun c => some (Instr.jcond c rb)) c.ofCode_code
  | _ => rfl

/-- The written-out word is the packed word, for every instruction. -/
theorem pack_fields (i : Instr) : pack i.mnemonic.descriptor i.fields = .ok (encode i) := by
  cases i with
  | add ra rb => exact Laws.EncodeIsPack.add ra rb
  | sub ra rb => exact Laws.EncodeIsPack.sub ra rb
  | cmp ra rb => exact Laws.EncodeIsPack.cmp ra rb
  | and ra rb => exact Laws.EncodeIsPack.and ra rb
  | or ra rb => exact Laws.EncodeIsPack.or ra rb
  | xor ra rb => exact Laws.EncodeIsPack.xor ra rb
  | mov ra rb => exact Laws.EncodeIsPack.mov ra rb
  | addi ra imm8 => exact Laws.EncodeIsPack.addi ra imm8
  | subi ra imm8 => exact Laws.EncodeIsPack.subi ra imm8
  | cmpi ra imm8 => exact Laws.EncodeIsPack.cmpi ra imm8
  | andi ra imm8 => exact Laws.EncodeIsPack.andi ra imm8
  | ori ra imm8 => exact Laws.EncodeIsPack.ori ra imm8
  | xori ra imm8 => exact Laws.EncodeIsPack.xori ra imm8
  | movi ra imm8 => exact Laws.EncodeIsPack.movi ra imm8
  | lsh ra rb => exact Laws.EncodeIsPack.lsh ra rb
  | lshi ra s mag => exact Laws.EncodeIsPack.lshi ra s mag
  | lui ra imm8 => exact Laws.EncodeIsPack.lui ra imm8
  | load ra rb => exact Laws.EncodeIsPack.load ra rb
  | stor ra rb => exact Laws.EncodeIsPack.stor ra rb
  | bcond c disp => exact Laws.EncodeIsPack.bcond c disp
  | jcond c rb => exact Laws.EncodeIsPack.jcond c rb
  | jal ra rb => exact Laws.EncodeIsPack.jal ra rb
  | wait => exact Laws.EncodeIsPack.wait
  | di => exact Laws.EncodeIsPack.di
  | ei => exact Laws.EncodeIsPack.ei
  | excp vec => exact Laws.EncodeIsPack.excp vec
  | stcr ra rb => exact Laws.EncodeIsPack.stcr ra rb
  | stcm ra rb => exact Laws.EncodeIsPack.stcm ra rb
  | ldcr ra rb => exact Laws.EncodeIsPack.ldcr ra rb
  | setq imm4 => exact Laws.EncodeIsPack.setq imm4
  | cmpt ra rb => exact Laws.EncodeIsPack.cmpt ra rb

/-- A word that the decoder recognizes as the row of an instruction with its fields is that instruction. -/
theorem decodeInstr_of_recognized {reg : Registry} {strict : Bool} {w : Word} {i : Instr}
    (h : decode reg strict w = .recognized i.mnemonic.descriptor i.fields) : decodeInstr reg strict w = some i := by
  have hrule : (mnemonicOf i.mnemonic.descriptor.mnemonic).bind (fun m => m.build i.fields) = some i := by
    rw [show i.mnemonic.descriptor.mnemonic = i.mnemonic.name from rfl, mnemonicOf_name, Option.bind_some, build_fields]
  rw [Machine.decodeWord_eq_instr, decodeWord, h]
  simp only [hrule]

theorem decodeTableWord_of_word (w : Word) : decodeTableWord 16 w.toNat = decodeInstr regDefault true w := by
  rw [decodeTableWord, Nat.mod_eq_of_lt w.isLt, BitVec.ofNat_toNat, BitVec.setWidth_eq]

/-- Settles O2: the word of an instruction is the packed word of its row, and packing reads back (O1). -/
theorem decodeOfEncodeIsTheInstruction : Obligations.DecodeOfEncodeIsTheInstruction := by
  unfold Obligations.DecodeOfEncodeIsTheInstruction
  intro i
  constructor
  · obtain ⟨w, hpack, hdecode⟩ := decodeOfPackIsRecognizedInEveryStrongRegistry true regDefault regDefault_strong
      i.mnemonic.descriptor (descriptor_mem_regDefault _) i.fields i.fields_tag
    rw [pack_fields, Except.ok.injEq] at hpack
    subst hpack
    rw [decodeTableWord_of_word]
    exact decodeInstr_of_recognized hdecode
  · rw [encodeWith, lookup_regDefault]
    exact pack_fields i

/-! ### Operands -/

theorem bind_eq_ok {α β : Type} {x : Except EncError α} {k : α → Except EncError β} {b : β} (h : x >>= k = .ok b) :
    ∃ a, x = .ok a ∧ k a = .ok b := by
  cases x with
  | error e => cases h
  | ok a => exact ⟨a, rfl, h⟩

/-- A record that is made from two reads is made from what they read. -/
theorem two_reads_eq_ok {α β : Type} {x : Except EncError α} {y : Except EncError β} {k : α → β → Fields} {f : Fields}
    (h : (do let a ← x; let b ← y; Except.ok (k a b)) = .ok f) : ∃ a b, f = k a b := by
  obtain ⟨a, -, h⟩ := bind_eq_ok h
  obtain ⟨b, -, h⟩ := bind_eq_ok h
  cases h
  exact ⟨a, b, rfl⟩

/-- The resolver makes a record of the shape of its tag (40_encoder.md R94), whatever reads the operands. -/
theorem resolveWith_tag {α : Type} {rd : OperandReader α} {tag : FormatTag} {ops : List α} {f : Fields}
    (h : resolveWith rd tag ops = .ok f) : f.tag = tag := by
  unfold resolveWith at h
  split at h
  case h_1 | h_12 => cases h
  case h_10 | h_11 => cases h; rfl
  case h_5 =>
    obtain ⟨_, -, h⟩ := bind_eq_ok h
    cases h
    rfl
  all_goals
    obtain ⟨_, _, rfl⟩ := two_reads_eq_ok h
    rfl

theorem lookup_mem {reg : Registry} {m : Text} {d : Descriptor} (h : lookup reg m = .ok d) : d ∈ reg := by
  unfold lookup at h
  split at h
  · next e he =>
    cases h
    exact List.mem_of_find?_eq_some he
  · cases h

/-- The inversion of `encodeOps`: the three stages of the encoder succeed (40_encoder.md R103). -/
theorem encodeOps_eq_ok {reg : Registry} {m : Text} {ops : List Operand} {w : Word} (h : encodeOps reg m ops = .ok w) :
    ∃ d f, lookup reg m = .ok d ∧ resolve d ops = .ok f ∧ pack d f = .ok w := by
  obtain ⟨d, hlookup, h⟩ := bind_eq_ok h
  obtain ⟨f, hresolve, hpack⟩ := bind_eq_ok h
  exact ⟨d, f, hlookup, hresolve, hpack⟩

/-- Settles O3: the resolver makes a record of the descriptor's shape, so its packed word reads back (O1). -/
theorem decodeOfEncodedOperandsGivesTheirFields : Obligations.DecodeOfEncodedOperandsGivesTheirFields := by
  unfold Obligations.DecodeOfEncodedOperandsGivesTheirFields
  intro strict reg hstrong m ops w h
  obtain ⟨d, f, hlookup, hresolve, hpack⟩ := encodeOps_eq_ok h
  obtain ⟨w', hpack', hdecode⟩ := decodeOfPackIsRecognizedInEveryStrongRegistry strict reg hstrong d
    (lookup_mem hlookup) f (resolveWith_tag hresolve)
  rw [hpack, Except.ok.injEq] at hpack'
  subst hpack'
  exact ⟨d, f, hlookup, hresolve, hdecode⟩

/-! ### The unassigned words of `REG_DEFAULT` (30_encoding.md R62) -/

theorem word_beq_eq {v : Word} (hra : raField v = 0) (hrb : rbField v = 0) (w : Word) :
    (w == v) = (opField w == opField v && extField w == extField v && raField w == 0 && rbField w == 0) := by
  have hiff : w = v ↔ opField w = opField v ∧ raField w = 0 ∧ extField w = extField v ∧ rbField w = 0 := by
    have hfields := nibbles_inj (a := opField w) (b := raField w) (c := extField w) (d := rbField w)
      (a' := opField v) (b' := raField v) (c' := extField v) (d' := rbField v)
    rwa [nibbles_fields, nibbles_fields, hra, hrb] at hfields
  rw [Bool.eq_iff_iff, beq_iff_eq, hiff]
  simp only [Bool.and_eq_true, beq_iff_eq]
  tauto

theorem top12Field_beq_eq {t : Bits12} {op ext : Nibble} (h : (t ++ 0#4 : BitVec (12 + 4)) = nibbles op 0 ext 0)
    (w : Word) : (top12Field w == t) = (opField w == op && extField w == ext && raField w == 0) := by
  have hiff : top12Field w = t ↔ opField w = op ∧ raField w = 0 ∧ extField w = ext := by
    rw [← and_FFF0_eq_append_iff, h, and_FFF0_eq_iff]
  rw [Bool.eq_iff_iff, beq_iff_eq, hiff]
  simp only [Bool.and_eq_true, beq_iff_eq]
  tauto

/-- Whether a row of `REG_DEFAULT` selects a word under strict zero bits, told from the opcode, the extension, and whether
`ra` and `rb` are 0. -/
def Mnemonic.selectsBy (m : Mnemonic) (op ext : Nibble) (ra0 rb0 : Bool) : Bool :=
  match m.format with
  | .rr o e | .rs o e | .jcond o e => op == o && ext == e
  | .i4 o e => op == o && ext == e && ra0
  | .ri o | .ir o | .bcond o => op == o
  | .ri4 o => op == o && ext &&& 0xE == 0
  | .fix v => op == opField v && ext == extField v && ra0 && rb0
  | .fixv t => op == opField (t ++ 0#4) && ext == extField (t ++ 0#4) && ra0
  | .other _ => false

theorem Mnemonic.selects_eq_selectsBy (m : Mnemonic) (w : Word) :
    m.format.selects true w = m.selectsBy (opField w) (extField w) (raField w == 0) (rbField w == 0) := by
  rw [Bool.eq_iff_iff]
  cases m with
  | wait | di | ei => exact selects_fix.trans (beq_iff_eq.symm.trans (Bool.eq_iff_iff.mp (word_beq_eq rfl rfl w)))
  | excp =>
    exact selects_fixv.trans (beq_iff_eq.symm.trans (Bool.eq_iff_iff.mp
      (top12Field_beq_eq (op := 4) (ext := 0xB) rfl w)))
  | lshi => simp [selectsBy, Mnemonic.format, selects_ri4]
  | bcond => simp [selectsBy, Mnemonic.format, selects_bcond]
  | jcond => simp [selectsBy, Mnemonic.format, selects_jcond]
  | setq => simp [selectsBy, Mnemonic.format, selects_i4, and_assoc]
  | stor | stcr | stcm | ldcr | cmpt => simp [selectsBy, Mnemonic.format, selects_rs]
  | add | sub | cmp | and | or | xor | mov | lsh | load | jal =>
    simp [selectsBy, Mnemonic.format, selects_rr]
  | addi | subi | cmpi | andi | ori | xori | movi | lui =>
    simp [selectsBy, Mnemonic.format, selects_ri]

/-- The list of unassigned words, told from the same parts of a word. -/
def unassignedBy (op ext : Nibble) (ra0 rb0 : Bool) : Bool :=
  if op.toNat = 0 then
    [0, 4, 6, 7, 8, 0xA, 0xC, 0xE, 0xF].contains ext.toNat && !(op == 0 && ext == 0 && ra0 && rb0)
  else if op.toNat = 4 then
    !([0, 4, 8, 0xC].contains ext.toNat) && !(op == 4 && ext == 3 && ra0 && rb0) &&
      !(op == 4 && ext == 7 && ra0 && rb0) && !(op == 4 && ext == 0xB && ra0)
  else if op.toNat = 6 || op.toNat = 7 || op.toNat = 0xA then true
  else if op.toNat = 8 then ext.toNat ≥ 2 && ext.toNat != 4
  else if op.toNat = 0xE then !([1, 2, 3, 4, 5].contains ext.toNat) || (ext.toNat == 4 && !ra0)
  else false

theorem unassignedWord_eq_unassignedBy (w : Word) :
    Machine.unassignedWord w = unassignedBy (opField w) (extField w) (raField w == 0) (rbField w == 0) := by
  simp only [Machine.unassignedWord, bne, word_beq_eq (v := 0x0000) rfl rfl w, word_beq_eq (v := 0x4030) rfl rfl w,
    word_beq_eq (v := 0x4070) rfl rfl w, top12Field_beq_eq (t := 0x40B) (op := 4) (ext := 0xB) rfl w]
  rfl

theorem no_row_selectsBy_iff : ∀ (op ext : Nibble) (ra0 rb0 : Bool),
    mnemonicAll.all (fun m => !m.selectsBy op ext ra0 rb0) = unassignedBy op ext ra0 rb0 := by decide

theorem regDefault_unrecognized_iff {w : Word} :
    decode regDefault true w = .unrecognized w ↔ ∀ m ∈ mnemonicAll, m.format.selects true w = false := by
  rw [decode_unrecognized_iff, regDefault, List.forall_mem_map]
  rfl

/-- Settles O8: rows and list both tell a word from its opcode, its extension and two zero tests, and agree on all of these. -/
theorem unassignedWordsOfTheDefaultRegistry : Obligations.UnassignedWordsOfTheDefaultRegistry := by
  unfold Obligations.UnassignedWordsOfTheDefaultRegistry
  intro w
  rw [regDefault_unrecognized_iff, unassignedWord_eq_unassignedBy, ← no_row_selectsBy_iff]
  simp only [List.all_eq_true, Bool.not_eq_true', Mnemonic.selects_eq_selectsBy]

/-! ### Written-out words -/

theorem decodeTableWord_of_encode {n : Nat} (i : Instr) (h : (encode i).toNat = n) : decodeTableWord 16 n = some i := by
  obtain ⟨hdecode, -⟩ := decodeOfEncodeIsTheInstruction i
  rwa [h] at hdecode

theorem decodeInstr_of_unrecognized {reg : Registry} {strict : Bool} {w : Word}
    (h : decode reg strict w = .unrecognized w) : decodeInstr reg strict w = none := by
  simp only [decodeInstr, decodeWord, h]

/-- Settles O9: seven words are the words of their instructions (O2), the eighth is on the list of unassigned words (O8). -/
theorem writtenOutWordsDecode : Obligations.WrittenOutWordsDecode := by
  unfold Obligations.WrittenOutWordsDecode
  refine ⟨decodeTableWord_of_encode _ rfl, decodeTableWord_of_encode _ rfl, decodeTableWord_of_encode _ rfl,
    decodeTableWord_of_encode _ rfl, decodeTableWord_of_encode _ rfl, decodeTableWord_of_encode _ rfl,
    decodeTableWord_of_encode _ rfl, ?unassigned⟩
  case unassigned =>
    exact decodeInstr_of_unrecognized ((unassignedWordsOfTheDefaultRegistry 0x4031).mpr (by decide))

/-- Settles O15: the text of each of the eleven words, by evaluation. -/
theorem renderedTextOfTheTable : Obligations.RenderedTextOfTheTable := by
  unfold Obligations.RenderedTextOfTheTable
  decide

end Sys2Proof
end

section
/-!
PROOFS. The invariant of the machine and the writers of each piece of state (10_state.md), from the shapes in which an
executed instruction ends (`EndsIn`); the reset event (70_reset_and_hazards.md).
-/

namespace Sys2Proof.Machine

/-! ### The invariant -/

/-- A zero result is not negative (42_alu.md R135). -/
theorem FlagsOf.not_zero_and_negative {v : Word} {t : State} (h : FlagsOf v t) : (t.flags.z && t.flags.n) = false := by
  obtain ⟨hz, hn⟩ := h
  rw [Bool.and_eq_false_imp]
  intro hzero
  rw [Bool.eq_false_iff, ne_eq, hn, hz.mp hzero]
  decide

theorem EndsIn.keeps_memory_wf {s t : State} {i : Instr} (h : EndsIn s i t) (hwf : Memory.wf s.dmem = true) :
    Memory.wf t.dmem = true := by
  cases h with
  | store a v => exact s.memWrite_wf a v hwf
  | _ => exact hwf

theorem EndsIn.keeps_flags_exclusive {s t : State} {i : Instr} (h : EndsIn s i t)
    (hzn : (s.flags.z && s.flags.n) = false) : (t.flags.z && t.flags.n) = false := by
  cases h with
  | @add ra a b =>
    obtain ⟨-, hflags, -⟩ := s.finishAdd_spec ra a b
    exact hflags.not_zero_and_negative
  | @sub ra a b =>
    obtain ⟨-, hflags, -⟩ := s.finishSub_spec ra a b
    exact hflags.not_zero_and_negative
  | cmp a b =>
    obtain ⟨hflags, -⟩ := s.finishCmp_spec a b
    exact hflags.not_zero_and_negative
  | @logic ra r =>
    obtain ⟨-, hflags, -⟩ := s.finishLogic_spec ra r
    exact hflags.not_zero_and_negative
  | _ => exact hzn

/-- A step moves `pc` or the run state alone, or executes an instruction that ends in one of the shapes. -/
theorem step_next_endsIn {s t : State} (h : step s = .next t) :
    (t.regs = s.regs ∧ t.flags = s.flags ∧ t.q = s.q ∧ t.cim = s.cim ∧ t.dmem = s.dmem) ∨
    (∃ i, s.Executes i ∧ EndsIn s i t) := by
  obtain ⟨-, rfl⟩ | ⟨-, -, rfl⟩ | ⟨w, -, -, -, rfl⟩ | ⟨i, hi, hexec⟩ := step_next_cases h
  · exact .inl ⟨rfl, rfl, rfl, rfl, rfl⟩
  · exact .inl ⟨rfl, rfl, rfl, rfl, rfl⟩
  · exact .inl ⟨rfl, rfl, rfl, rfl, rfl⟩
  · exact .inr ⟨i, hi, exec_endsIn hexec⟩

/-- Settles O55: no step writes `C`, `L` or the program; a store keeps the canonical form, and `Z` and `N` are written
together, as those of one result. -/
theorem everyStepKeepsTheInvariant : Obligations.EveryStepKeepsTheInvariant := by
  unfold Obligations.EveryStepKeepsTheInvariant
  intro s t ⟨hwf, hc, hl, hzn, hprog⟩ hstep
  obtain ⟨hcKept, hlKept, hprogKept, -⟩ := step_constantsKept hstep
  refine ⟨?memory, hcKept.trans hc, hlKept.trans hl, ?exclusive, hprogKept ▸ hprog⟩
  case memory =>
    obtain ⟨-, -, -, -, hdmem⟩ | ⟨i, -, hends⟩ := step_next_endsIn hstep
    · rwa [hdmem]
    · exact hends.keeps_memory_wf hwf
  case exclusive =>
    obtain ⟨-, hflags, -⟩ | ⟨i, -, hends⟩ := step_next_endsIn hstep
    · rwa [hflags]
    · exact hends.keeps_flags_exclusive hzn

/-! ### Reset -/

/-- The invariant at a start asks for a legal program length and nothing else. -/
theorem startUnder_inv {cfg : Params} {prog : List Word} (h : programWf prog = true) : (startUnder cfg prog).Inv :=
  ⟨State.reset_wf, rfl, rfl, rfl, h⟩

/-- Settles O56: reset is a start with the empty program. -/
theorem theInvariantHoldsAtTheStart : Obligations.TheInvariantHoldsAtTheStart := by
  unfold Obligations.TheInvariantHoldsAtTheStart
  exact ⟨startUnder_inv (cfg := paramsDefault) (prog := []) rfl, fun _ hlen => startUnder_inv (decide_eq_true hlen)⟩

/-- Settles O58, by what each read of the reset state returns. -/
theorem resetOfTheOtherState : Obligations.ResetOfTheOtherState :=
  ⟨State.reset_row, rfl, rfl, rfl, rfl⟩

theorem step_of_not_running {s : State} (h : s.run ≠ .running) : step s = .next s := by
  unfold step
  split
  · next hrun => exact absurd hrun h
  · rfl

theorem Reaches.eq_of_not_running {s t : State} (hs : s.run ≠ .running) (h : Reaches s t) : t = s := by
  induction h with
  | refl => rfl
  | step _ hstep ih =>
    rw [ih, step_of_not_running hs] at hstep
    cases hstep
    rfl

/-- Settles O60: what each read of the state after a reset returns; and by steps a core that is not running stays where it
is. -/
theorem resetIsTheOnlyWayOutAndKeepsTheProgram : Obligations.ResetIsTheOnlyWayOutAndKeepsTheProgram := by
  unfold Obligations.ResetIsTheOnlyWayOutAndKeepsTheProgram
  intro s
  refine ⟨⟨?registers, s.restart_pc, ?slots, ?rows, s.restart_q, s.restart_flags, s.restart_run, s.restart_prog,
    s.restart_cfg⟩, startUnder_inv, fun hrun t hreach => hreach.eq_of_not_running hrun⟩
  case registers => intro i; rw [State.restart_reg, State.reset_reg]
  case slots => intro a; rw [State.restart_memRead, State.reset_memRead]
  case rows => intro r; rw [State.restart_row, State.reset_row]

/-! ### The writers of each piece of state -/

theorem writesZN_of_writesF {i : Instr} (h : writesF i = true) : writesZN i = true := by
  cases i with
  | add | addi | sub | subi | cmp | cmpi => rfl
  | _ => cases h

section
variable {s t : State} {i : Instr}

theorem EndsIn.writesF_of_change (h : EndsIn s i t) (hne : t.flags.f ≠ s.flags.f) : writesF i = true := by
  cases h with
  | add _ _ _ hf | sub _ _ _ hf | cmp _ _ hf => exact hf
  | _ => exact absurd rfl hne

theorem EndsIn.writesZN_of_change (h : EndsIn s i t) (hne : t.flags.z ≠ s.flags.z ∨ t.flags.n ≠ s.flags.n) :
    writesZN i = true := by
  cases h with
  | add _ _ _ hf | sub _ _ _ hf | cmp _ _ hf => exact writesZN_of_writesF hf
  | logic _ _ hzn => exact hzn
  | _ => exact absurd hne (not_or.mpr ⟨not_not_intro rfl, not_not_intro rfl⟩)

theorem EndsIn.writesQ_of_change (h : EndsIn s i t) (hne : t.q ≠ s.q) : writesQ i = true := by
  cases h with
  | setQ _ hq => exact hq
  | _ => exact absurd rfl hne

theorem EndsIn.writesBank_of_change (h : EndsIn s i t) (hne : t.cim ≠ s.cim) : writesBank i = true := by
  cases h with
  | rowWrite _ _ hb => exact hb
  | _ => exact absurd rfl hne

theorem EndsIn.writesMemory_of_change (h : EndsIn s i t) (hne : t.dmem ≠ s.dmem) : writesMemory i = true := by
  cases h with
  | store _ _ hm => exact hm
  | _ => exact absurd rfl hne

theorem RegsKeptBut.eq_of_change {ra r : Nibble} (h : RegsKeptBut [ra] s t) (hne : t.reg r ≠ s.reg r) : r = ra := by
  by_contra hr
  exact hne (h r (by simpa using hr))

theorem RegisterOnly.eq_of_change {ra r : Nibble} (h : RegisterOnly [ra] s t) (hne : t.reg r ≠ s.reg r) : r = ra :=
  RegsKeptBut.eq_of_change h.1 hne

theorem EndsIn.destination_of_change {r : Nibble} (h : EndsIn s i t) (hne : t.reg r ≠ s.reg r) :
    destination i = some r := by
  cases h with
  | @add ra a b hd _ =>
    obtain ⟨-, -, -, -, hframe⟩ := s.finishAdd_spec ra a b
    rw [hframe.eq_of_change hne, hd]
  | @sub ra a b hd _ =>
    obtain ⟨-, -, -, -, hframe⟩ := s.finishSub_spec ra a b
    rw [hframe.eq_of_change hne, hd]
  | @logic ra v hd _ =>
    obtain ⟨-, -, -, -, hframe⟩ := s.finishLogic_spec ra v
    rw [hframe.eq_of_change hne, hd]
  | @move ra v hd =>
    obtain ⟨-, -, -, hframe⟩ := s.finishMove_spec ra v
    rw [hframe.eq_of_change hne, hd]
  | @link ra v pc hd => rw [(s.setReg_registerOnly ra v).eq_of_change hne, hd]
  | _ => exact absurd rfl hne

end

/-- Settles O53: a step that executes no instruction changes none of these, and each shape of an executed one names its
writer. -/
theorem everyChangeHasItsWriter : Obligations.EveryChangeHasItsWriter := by
  unfold Obligations.EveryChangeHasItsWriter
  intro s t hstep
  obtain ⟨hregs, hflags, hq, hcim, hdmem⟩ | ⟨i, hi, hends⟩ := step_next_endsIn hstep
  · refine ⟨?_, ?_, fun hne => absurd hq hne, fun hne => absurd hcim hne, fun hne => absurd hdmem hne, ?_⟩
    · exact fun hne => absurd (congrArg Flags.f hflags) hne
    · rw [hflags]
      exact fun hne => absurd hne (not_or.mpr ⟨not_not_intro rfl, not_not_intro rfl⟩)
    · intro r hne
      simp only [State.reg, hregs, ne_eq, not_true_eq_false] at hne
  · exact ⟨fun hne => ⟨i, hi, hends.writesF_of_change hne⟩, fun hne => ⟨i, hi, hends.writesZN_of_change hne⟩,
      fun hne => ⟨i, hi, hends.writesQ_of_change hne⟩, fun hne => ⟨i, hi, hends.writesBank_of_change hne⟩,
      fun hne => ⟨i, hi, hends.writesMemory_of_change hne⟩, fun _ hne => ⟨i, hi, hends.destination_of_change hne⟩⟩

/-- Settles O54: `prog` and `cfg` are among the constants of a run. -/
theorem programAndParametersAreFixed : Obligations.ProgramAndParametersAreFixed := by
  unfold Obligations.ProgramAndParametersAreFixed
  intro s t hreach
  obtain ⟨-, -, hprog, hcfg⟩ := hreach.constantsKept
  exact ⟨hprog, hcfg⟩

end Sys2Proof.Machine
end

section
/-!
PROOFS. The three instructions that can fault (60_exceptions.md R222), each by an equation for the fault and one for the
operands that do not fault; the ends of a run, the refusals, and the step limit (45_control.md, 60_exceptions.md,
70_reset_and_hazards.md).
-/

namespace Sys2Proof.Machine

/-! ### The instructions that can fault -/

theorem exec_lshi_of_neg {mag : Nibble} (h : mag ≠ 0) (ra : Nibble) (s : State) :
    exec (.lshi ra true mag) s = .next (s.raise (.negativeShift (-(mag.toNat : Int)))) := by
  obtain ⟨hneg, -⟩ := signMagInt_spec true mag
  exact if_pos (hneg.mpr ⟨rfl, h⟩)

theorem exec_lshi_of_nonneg {sgn : Bool} {mag : Nibble} (h : sgn = false ∨ mag = 0) (ra : Nibble) (s : State) :
    exec (.lshi ra sgn mag) s = .next (s.finishMove ra (shiftLeft (s.reg ra) mag.toNat)) := by
  obtain ⟨hneg, habs⟩ := signMagInt_spec sgn mag
  have hnonneg : ¬ signMagInt sgn mag < 0 := by
    rw [hneg]
    rintro ⟨rfl, hmag⟩
    obtain hfalse | hzero := h
    · cases hfalse
    · exact hmag hzero
  have htoNat : (signMagInt sgn mag).toNat = mag.toNat := by omega
  exact (if_neg hnonneg).trans (by rw [htoNat])

theorem exec_stcr_of_no_row {rb : Nibble} {s : State} (h : (s.reg rb).toInt < 0 ∨ 15 < (s.reg rb).toInt) (ra : Nibble) :
    exec (.stcr ra rb) s = .next (s.raise (.cimIndex (s.reg rb).toInt)) := by
  have hrow : rowOfInt (s.regInt rb) = none := (rowOfInt_eq_none _).mpr h
  simp only [exec, execStcr, hrow]
  rfl

theorem exec_stcr_of_row {rb r : Nibble} {s : State} (h : (s.reg rb).toInt = (r.toNat : Int)) (ra : Nibble) :
    exec (.stcr ra rb) s = .next (s.setRow r (s.reg ra)).advance := by
  have hrow : rowOfInt (s.regInt rb) = some r := (rowOfInt_eq_some _ r).mpr h
  simp only [exec, execStcr, hrow]

theorem exec_ldcr_of_no_row {ra : Nibble} {s : State} (h : (s.reg ra).toInt < 0 ∨ 15 < (s.reg ra).toInt) (rb : Nibble) :
    exec (.ldcr ra rb) s = .next (s.raise (.cimIndex (s.reg ra).toInt)) := by
  have hrow : rowOfInt (s.regInt ra) = none := (rowOfInt_eq_none _).mpr h
  simp only [exec, execLdcr, hrow]
  rfl

/-- LDCR ends as the logic instructions do, with the row as the result (46_cim.md R200). -/
theorem exec_ldcr_of_row {ra r : Nibble} {s : State} (h : (s.reg ra).toInt = (r.toNat : Int)) (rb : Nibble) :
    exec (.ldcr ra rb) s = .next (s.finishLogic rb (s.row r)) := by
  have hrow : rowOfInt (s.regInt ra) = some r := (rowOfInt_eq_some _ r).mpr h
  simp only [exec, execLdcr, hrow]
  rfl

/-- An index is a row number or is outside the bank. -/
theorem row_or_no_row (n : Int) : (∃ r : Nibble, n = (r.toNat : Int)) ∨ n < 0 ∨ 15 < n := by
  cases h : rowOfInt n with
  | none => exact .inr ((rowOfInt_eq_none n).mp h)
  | some r => exact .inl ⟨r, (rowOfInt_eq_some n r).mp h⟩

/-- Settles O26, by the equations of the three faults. -/
theorem faultsChangeOnlyTheRunState : Obligations.FaultsChangeOnlyTheRunState := by
  unfold Obligations.FaultsChangeOnlyTheRunState
  exact ⟨fun s ra _ hmag => exec_lshi_of_neg hmag ra s, fun _ ra _ hrow => exec_stcr_of_no_row hrow ra,
    fun _ _ rb hrow => exec_ldcr_of_no_row hrow rb⟩

/-! ### Leaving `Running` -/

/-- An instruction, in a state, raises the fault kind (60_exceptions.md R222). -/
inductive Raises (s : State) : Instr → FaultKind → Prop where
  | negativeShift {ra mag : Nibble} (hmag : mag ≠ 0) : Raises s (.lshi ra true mag) (.negativeShift (-(mag.toNat : Int)))
  | storeRow {ra rb : Nibble} (h : (s.reg rb).toInt < 0 ∨ 15 < (s.reg rb).toInt) :
      Raises s (.stcr ra rb) (.cimIndex (s.reg rb).toInt)
  | loadRow {ra rb : Nibble} (h : (s.reg ra).toInt < 0 ∨ 15 < (s.reg ra).toInt) :
      Raises s (.ldcr ra rb) (.cimIndex (s.reg ra).toInt)

/-- `exec_run_cases` with the faults told apart by `Raises`. -/
theorem exec_run_or_raises {i : Instr} {s t : State} (h : exec i s = .next t) :
    t.run = s.run ∨ (i = .wait ∧ s.cfg.wait = .halt ∧ t = s.halt .wait) ∨ ∃ k, Raises s i k ∧ t = s.raise k := by
  cases i with
  | lshi ra sgn mag =>
    by_cases hneg : sgn = true ∧ mag ≠ 0
    · obtain ⟨rfl, hmag⟩ := hneg
      rw [exec_lshi_of_neg hmag] at h
      cases h
      exact .inr (.inr ⟨_, .negativeShift hmag, rfl⟩)
    · rw [exec_lshi_of_nonneg (by simpa [imp_iff_not_or] using hneg)] at h
      cases h
      exact .inl rfl
  | stcr ra rb =>
    obtain ⟨r, hrow⟩ | hrow := row_or_no_row (s.reg rb).toInt
    · rw [exec_stcr_of_row hrow] at h
      cases h
      exact .inl rfl
    · rw [exec_stcr_of_no_row hrow] at h
      cases h
      exact .inr (.inr ⟨_, .storeRow hrow, rfl⟩)
  | ldcr ra rb =>
    obtain ⟨r, hrow⟩ | hrow := row_or_no_row (s.reg ra).toInt
    · rw [exec_ldcr_of_row hrow] at h
      cases h
      exact .inl rfl
    · rw [exec_ldcr_of_no_row hrow] at h
      cases h
      exact .inr (.inr ⟨_, .loadRow hrow, rfl⟩)
  | wait =>
    cases h
    split
    · next hpolicy => exact .inr (.inl ⟨rfl, hpolicy, rfl⟩)
    · exact .inl rfl
  | bcond | jcond =>
    cases h
    split <;> exact .inl rfl
  | jal ra rb =>
    simp only [exec, execJal] at h
    split at h
    · cases h
    · cases h; exact .inl rfl
  | excp => cases h
  | _ => cases h; exact .inl rfl

/-- Settles O51: a running core stops by an empty fetch, by WAIT, or by a fault that an instruction raises, and each of
these changes the run state alone. -/
theorem leavingRunningChangesOnlyTheRunState : Obligations.LeavingRunningChangesOnlyTheRunState := by
  unfold Obligations.LeavingRunningChangesOnlyTheRunState
  intro s t hrun hstep hstop
  obtain ⟨hstopped, -⟩ | ⟨-, hfetch, rfl⟩ | ⟨w, -, -, -, rfl⟩ | ⟨i, hi, hexec⟩ := step_next_cases hstep
  · exact absurd hrun hstopped
  · exact ⟨rfl, .inl ⟨rfl, hfetch⟩⟩
  · exact absurd (s.advance_run.trans hrun) hstop
  · obtain hkept | ⟨rfl, hpolicy, rfl⟩ | ⟨k, hraises, rfl⟩ := exec_run_or_raises hexec
    · exact absurd (hkept.trans hrun) hstop
    · exact ⟨rfl, .inr (.inl ⟨rfl, hi, hpolicy⟩)⟩
    · refine ⟨rfl, .inr (.inr ?_)⟩
      cases hraises with
      | negativeShift hmag => exact .inl ⟨_, _, hi, hmag, rfl⟩
      | storeRow hrow => exact .inr ⟨_, _, _, .inl ⟨hi, rfl⟩, hrow, rfl⟩
      | loadRow hrow => exact .inr ⟨_, _, _, .inr ⟨hi, rfl⟩, hrow, rfl⟩

/-! ### Refusals -/

theorem exec_excp (vec : Nibble) (s : State) : exec (.excp vec) s = .refused (.excpHasNoMeaning vec) := rfl

theorem exec_jal_same (r : Nibble) (s : State) : exec (.jal r r) s = .refused (.jalSameRegister r) := if_pos rfl

theorem exec_jal_of_ne {ra rb : Nibble} (h : ra ≠ rb) (s : State) :
    exec (.jal ra rb) s = .next ((s.setReg ra (narrow16 (s.pc + 1))).jump (s.regInt rb)) := if_neg h

/-- Settles O34, by the two equations. -/
theorem excpAndJalOfOneRegisterAreRefused : Obligations.ExcpAndJalOfOneRegisterAreRefused :=
  ⟨fun s vec => exec_excp vec s, fun s r => exec_jal_same r s⟩

/-- The only instructions that are refused (60_exceptions.md R227). -/
theorem exec_refused_cases {i : Instr} {s : State} {r : Refusal} (h : exec i s = .refused r) :
    (∃ x, i = .jal x x ∧ r = .jalSameRegister x) ∨ (∃ v, i = .excp v ∧ r = .excpHasNoMeaning v) := by
  cases i with
  | excp vec =>
    cases h
    exact .inr ⟨vec, rfl, rfl⟩
  | jal ra rb =>
    by_cases hsame : ra = rb
    · subst hsame
      rw [exec_jal_same] at h
      cases h
      exact .inl ⟨ra, rfl, rfl⟩
    · rw [exec_jal_of_ne hsame] at h
      cases h
  | lshi | stcr | ldcr =>
    simp only [exec, execLshi, execStcr, execLdcr] at h
    split at h <;> cases h
  | _ => cases h

/-- A word without an execution rule is recognized, and no instruction is built from it (45_control.md R177). -/
theorem decodeWord_noRule {reg : Registry} {strict : Bool} {w : Word} {m : Text} (h : decodeWord reg strict w = .noRule m) :
    (∃ d f, decode reg strict w = .recognized d f ∧ m = d.mnemonic) ∧ decodeInstr reg strict w = none := by
  refine ⟨?_, by simp only [decodeInstr, h]⟩
  unfold decodeWord at h
  split at h
  · cases h
  · next d f hdecode =>
    split at h
    · cases h
    · cases h
      exact ⟨d, f, hdecode, rfl⟩

/-- Everything a refused step can be. -/
theorem step_refused_cases {s : State} {r : Refusal} (h : step s = .refused r) :
    (∃ i, s.Executes i ∧ exec i s = .refused r) ∨
    (∃ w m, s.fetch = some w ∧ decodeWord s.cfg.registry s.cfg.strictZeroBits w = .noRule m ∧ r = .noExecutionRule m) := by
  unfold step at h
  split at h
  · next hrun =>
    split at h
    · cases h
    · next w hfetch =>
      split at h
      · next i hdecode => exact .inl ⟨i, ⟨hrun, w, hfetch, decodeWord_eq_instr.mpr hdecode⟩, h⟩
      · cases h
      · next m hdecode =>
        cases h
        exact .inr ⟨w, m, hfetch, hdecode, rfl⟩
  · cases h

/-- Settles O50: a refused step executes an instruction that is refused, or has fetched a word without an execution rule. -/
theorem onlyThreeRefusals : Obligations.OnlyThreeRefusals := by
  unfold Obligations.OnlyThreeRefusals
  intro s r h
  obtain ⟨i, hi, hexec⟩ | ⟨w, m, hfetch, hdecode, rfl⟩ := step_refused_cases h
  · obtain ⟨x, rfl, rfl⟩ | ⟨v, rfl, rfl⟩ := exec_refused_cases hexec
    · exact .inl ⟨x, hi, rfl⟩
    · exact .inr (.inl ⟨v, hi, rfl⟩)
  · obtain ⟨⟨d, f, hrecognized, rfl⟩, hnone⟩ := decodeWord_noRule hdecode
    exact .inr (.inr ⟨w, d, f, hfetch, hrecognized, hnone, rfl⟩)

/-! ### Steps that execute, skip, or do nothing -/

/-- Settles O47: such a state executes the instruction. -/
theorem stepRunsTheDecodedInstruction : Obligations.StepRunsTheDecodedInstruction := by
  unfold Obligations.StepRunsTheDecodedInstruction
  intro s w i hrun hpc hword hdecode
  exact step_of_executes ⟨hrun, w, (s.fetch_eq_some w).mpr ⟨hpc, hword⟩, hdecode⟩

theorem step_of_unrecognized {s : State} {w : Word} (hrun : s.run = .running) (hfetch : s.fetch = some w)
    (h : decode s.cfg.registry s.cfg.strictZeroBits w = .unrecognized w) : step s = .next s.advance := by
  have hword : decodeWord s.cfg.registry s.cfg.strictZeroBits w = .unrecognized w := by simp only [decodeWord, h]
  simp only [step, hrun, hfetch, hword]
  rfl

/-- Settles O49, by the two equations of a step that executes nothing. -/
theorem skipAndTerminalSteps : Obligations.SkipAndTerminalSteps :=
  ⟨fun _ _ => step_of_unrecognized, fun _ => step_of_not_running⟩

/-! ### The step limit -/

theorem runSteps_of_not_running {s : State} (h : s.run ≠ .running) (k : Nat) : runSteps k s = .terminal s := by
  cases k <;> exact if_neg h

theorem runSteps_zero_of_running {s : State} (h : s.run = .running) : runSteps 0 s = .limit s := if_pos h

theorem runSteps_succ_of_next {s t : State} (h : s.run = .running) (hstep : step s = .next t) (k : Nat) :
    runSteps (k + 1) s = runSteps k t := by
  simp only [runSteps, h, hstep, if_true]

theorem runSteps_succ_of_refused {s : State} {r : Refusal} (h : s.run = .running) (hstep : step s = .refused r) (k : Nat) :
    runSteps (k + 1) s = .refused r := by
  simp only [runSteps, h, hstep, if_true]

/-- Settles O59: by induction on the smaller limit, along the run; an end is reached at the same step under both. -/
theorem stepLimitDoesNotChangeAnEnd : Obligations.StepLimitDoesNotChangeAnEnd := by
  unfold Obligations.StepLimitDoesNotChangeAnEnd
  intro s k n e hend hnolimit hle
  induction k generalizing s n with
  | zero =>
    by_cases hrun : s.run = .running
    · exact absurd (hend.symm.trans (runSteps_zero_of_running hrun)) (hnolimit s)
    · rw [← hend, runSteps_of_not_running hrun, runSteps_of_not_running hrun]
  | succ k ih =>
    obtain ⟨n, rfl⟩ := Nat.exists_eq_add_one_of_ne_zero (Nat.ne_of_gt (Nat.lt_of_lt_of_le k.succ_pos hle))
    by_cases hrun : s.run = .running
    · cases hstep : step s with
      | next t =>
        rw [runSteps_succ_of_next hrun hstep] at hend ⊢
        exact ih t n hend (Nat.le_of_succ_le_succ hle)
      | refused r => rw [← hend, runSteps_succ_of_refused hrun hstep, runSteps_succ_of_refused hrun hstep]
      | fault r => cases r
    · rw [← hend, runSteps_of_not_running hrun, runSteps_of_not_running hrun]

/-! ### Control transfer and system (45_control.md) -/

theorem exec_bcond_of_true {c : Cond} {s : State} (h : condTrue c s.flags = true) (disp : Byte) :
    exec (.bcond c disp) s = .next (s.jump (s.pc + 1 + sext8 disp)) := by
  simp only [exec, execBcond, h, if_true]

theorem exec_bcond_of_false {c : Cond} {s : State} (h : condTrue c s.flags = false) (disp : Byte) :
    exec (.bcond c disp) s = .next s.advance := by
  simp only [exec, execBcond, h, Bool.false_eq_true, if_false]

theorem exec_jcond_of_true {c : Cond} {s : State} (h : condTrue c s.flags = true) (rb : Nibble) :
    exec (.jcond c rb) s = .next (s.jump (s.reg rb).toInt) := by
  simp only [exec, execJcond, h, if_true]
  rfl

theorem exec_jcond_of_false {c : Cond} {s : State} (h : condTrue c s.flags = false) (rb : Nibble) :
    exec (.jcond c rb) s = .next s.advance := by
  simp only [exec, execJcond, h, Bool.false_eq_true, if_false]

/-- `pc` is no register: a jump changes none of what `RegisterOnly` speaks of. -/
theorem State.jump_registerOnly (s : State) (pc : Int) : RegisterOnly [] s (s.jump pc) :=
  ⟨fun _ _ => rfl, fun _ => rfl, fun _ => rfl, rfl, rfl, rfl, rfl, rfl, rfl⟩

theorem State.advance_registerOnly (s : State) : RegisterOnly [] s s.advance := s.jump_registerOnly (s.pc + 1)

theorem sext8_eq (v : Byte) : sext8 v = if v.toNat < 128 then (v.toNat : Int) else (v.toNat : Int) - 256 := by
  have hcond := BitVec.toInt_eq_toNat_cond v
  unfold sext8
  split at hcond <;> split <;> omega

/-- Settles O32: both branches of the condition, for each of the two. -/
theorem bcondAndJcondEffect : Obligations.BcondAndJcondEffect := by
  unfold Obligations.BcondAndJcondEffect
  intro s c
  cases hc : condTrue c s.flags with
  | true =>
    refine ⟨fun disp => ⟨_, exec_bcond_of_true hc disp, ?_, rfl, s.jump_registerOnly _⟩,
      fun rb => ⟨_, exec_jcond_of_true hc rb, rfl, rfl, s.jump_registerOnly _⟩⟩
    rw [State.jump_pc, sext8_eq, if_pos rfl]
  | false =>
    refine ⟨fun disp => ⟨_, exec_bcond_of_false hc disp, ?_, rfl, s.advance_registerOnly⟩,
      fun rb => ⟨_, exec_jcond_of_false hc rb, rfl, rfl, s.advance_registerOnly⟩⟩
    rw [State.advance_pc, if_neg Bool.false_ne_true, add_zero]

theorem sext8_labelDisp (target address : Nat) :
    sext8 (labelDisp target address) = ((target : Int) - ((address : Int) + 1)).bmod 256 := BitVec.toInt_ofInt _

/-- Settles O13: the displacement is the distance wrapped to a byte, so it is the distance when that is in reach, and
congruent to it in every case. -/
theorem branchToALabelLandsOnTheLabel : Obligations.BranchToALabelLandsOnTheLabel := by
  unfold Obligations.BranchToALabelLandsOnTheLabel
  intro s c target address hcond hpc
  refine ⟨_, exec_bcond_of_true hcond _, ?inReach, ?congruent⟩
  case inReach =>
    intro hlo hhi
    rw [State.jump_pc, hpc, sext8_labelDisp, Int.bmod_eq_of_le (by omega) (by omega)]
    omega
  case congruent =>
    have hwrap : ((target : Int) - ((address : Int) + 1)).bmod 256 % 256 = ((target : Int) - ((address : Int) + 1)) % 256 :=
      Int.bmod_emod
    rw [State.jump_pc, hpc, sext8_labelDisp]
    omega

/-- Settles O33: the link is written first, the target is read from the state before. -/
theorem jalEffect : Obligations.JalEffect := by
  unfold Obligations.JalEffect
  intro s ra rb hne
  refine ⟨_, exec_jal_of_ne hne s, ?_, rfl, rfl, s.setReg_registerOnly ra _⟩
  rw [State.jump_reg, State.setReg_reg_self, narrow16_toNat]

/-- Settles O35, by the two policies. -/
theorem waitEffect : Obligations.WaitEffect := by
  unfold Obligations.WaitEffect
  intro s
  cases hpolicy : s.cfg.wait with
  | halt =>
    exact ⟨_, exec_wait_of_halt hpolicy, rfl, fun _ _ => rfl, fun _ => rfl, fun _ => rfl, rfl, rfl, rfl,
      fun _ => ⟨rfl, rfl⟩, nofun⟩
  | nop =>
    have hexec : exec .wait s = .next s.advance := by simp only [exec, execWait, hpolicy]
    exact ⟨_, hexec, rfl, fun _ _ => rfl, fun _ => rfl, fun _ => rfl, rfl, rfl, rfl, nofun, fun _ => ⟨rfl, rfl⟩⟩

/-- Settles O36: DI and EI are a plain advance. -/
theorem diAndEiEffect : Obligations.DiAndEiEffect :=
  fun s => ⟨s.advance, rfl, rfl, s.advance_pc, rfl, s.advance_registerOnly⟩

end Sys2Proof.Machine
end

section
/-!
PROOFS. The effects of the arithmetic and logic instructions (42_alu.md), the shifts (43_shift.md), load and store
(44_loadstore.md), each from the shared operation in which the instruction ends.
-/

namespace Sys2Proof.Machine

/-! ### The subtract class -/

theorem exec_sub (ra rb : Nibble) (s : State) :
    exec (.sub ra rb) s = .next (s.finishSub ra (s.regInt ra) (s.regInt rb)) := rfl

theorem exec_subi (ra : Nibble) (imm8 : Byte) (s : State) :
    exec (.subi ra imm8) s = .next (s.finishSub ra (s.regInt ra) (immInt s.cfg.imm8.subi imm8)) := rfl

theorem exec_cmp (ra rb : Nibble) (s : State) :
    exec (.cmp ra rb) s = .next (s.finishCmp (s.regInt ra) (s.regInt rb)) := rfl

theorem exec_cmpi (ra : Nibble) (imm8 : Byte) (s : State) :
    exec (.cmpi ra imm8) s = .next (s.finishCmp (s.regInt ra) (immInt s.cfg.imm8.cmpi imm8)) := rfl

/-- `finishSub_spec` with the result as a signed number (42_alu.md R135) and `F` by the sign rule (R137), for any two
integers as operands. -/
theorem State.finishSub_signed (s : State) (ra : Nibble) (a b : Int) :
    ((s.finishSub ra a b).reg ra).toInt = (a - b).bmod 65536 ∧
    FlagsOf ((s.finishSub ra a b).reg ra) (s.finishSub ra a b) ∧
    ((s.finishSub ra a b).flags.f = true ↔
      (¬(a < 0 ↔ b < 0) ∧ ¬(((s.finishSub ra a b).reg ra).toInt < 0 ↔ a < 0))) ∧
    (s.finishSub ra a b).pc = s.pc + 1 ∧ RegisterOnly [ra] s (s.finishSub ra a b) := by
  obtain ⟨hreg, hzn, hf, hpc, hframe⟩ := s.finishSub_spec ra a b
  rw [hreg, hf]
  exact ⟨narrow16_toInt _, hzn, overflowSub_iff a b _, hpc, hframe⟩

/-- Settles O17: SUB and SUBI end in `finishSub`, with the destination register as the minuend. -/
theorem subAndSubiEffect : Obligations.SubAndSubiEffect := by
  unfold Obligations.SubAndSubiEffect
  intro s ra
  constructor
  · intro rb
    exact ⟨_, exec_sub ra rb s, s.finishSub_signed ra (s.regInt ra) (s.regInt rb)⟩
  · intro imm8
    exact ⟨_, exec_subi ra imm8 s, s.finishSub_signed ra (s.regInt ra) (immInt s.cfg.imm8.subi imm8)⟩

/-- `finishCmp_spec` with the flags told from the wrapped difference as a signed number. -/
theorem State.finishCmp_signed (s : State) (a b : Int) :
    ((s.finishCmp a b).flags.z = true ↔ (a - b).bmod 65536 = 0) ∧
    ((s.finishCmp a b).flags.n = true ↔ (a - b).bmod 65536 < 0) ∧
    ((s.finishCmp a b).flags.f = true ↔ (¬(a < 0 ↔ b < 0) ∧ ¬((a - b).bmod 65536 < 0 ↔ a < 0))) ∧
    (s.finishCmp a b).pc = s.pc + 1 ∧ RegisterOnly [] s (s.finishCmp a b) := by
  obtain ⟨⟨hz, hn⟩, hf, hpc, hframe⟩ := s.finishCmp_spec a b
  have hzero : narrow16 (a - b) = 0 ↔ (narrow16 (a - b)).toInt = 0 := BitVec.toInt_inj.symm
  rw [hz, hn, hf, hzero, overflowSub_iff, narrow16_toInt]
  exact ⟨Iff.rfl, Iff.rfl, Iff.rfl, hpc, hframe⟩

/-- Settles O18: CMP and CMPI end in `finishCmp`, with the destination register as the minuend. -/
theorem cmpAndCmpiEffect : Obligations.CmpAndCmpiEffect := by
  unfold Obligations.CmpAndCmpiEffect
  intro s ra
  constructor
  · intro rb
    exact ⟨_, exec_cmp ra rb s, s.finishCmp_signed (s.regInt ra) (s.regInt rb)⟩
  · intro imm8
    exact ⟨_, exec_cmpi ra imm8 s, s.finishCmp_signed (s.regInt ra) (immInt s.cfg.imm8.cmpi imm8)⟩

/-! ### Overflow -/

/-- An integer that a 16-bit word can stand for. -/
def InWordRange (n : Int) : Prop := -32768 ≤ n ∧ n ≤ 32767

theorem State.regInt_inWordRange (s : State) (i : Nibble) : InWordRange (s.regInt i) := word_toInt_bounds (s.reg i)

theorem immInt_inWordRange (p : ImmExt) (imm8 : Byte) : InWordRange (immInt p imm8) := by
  obtain ⟨hlo, hhi⟩ := immInt_bounds p imm8
  exact ⟨by omega, by omega⟩

/-- Wrapping a number less than one word away from the range adds or takes off one word. -/
theorem bmod_word_cases {n : Int} (hlo : -98304 ≤ n) (hhi : n < 98304) :
    n.bmod 65536 = if n < -32768 then n + 65536 else if n ≤ 32767 then n else n - 65536 := by
  have hwrap := Int.bmod_emod (x := n) (m := 65536)
  have hlower := Int.le_bmod (x := n) (m := 65536) (by decide)
  have hupper := Int.bmod_lt (x := n) (m := 65536) (by decide)
  split <;> [skip; split] <;> omega

theorem overflowAdd_narrow16_iff {a b : Int} (ha : InWordRange a) (hb : InWordRange b) :
    overflowAdd a b (narrow16 (a + b)) = true ↔ ¬ InWordRange (a + b) := by
  unfold InWordRange at *
  rw [overflowAdd_iff, narrow16_toInt, bmod_word_cases (by omega) (by omega)]
  split <;> [skip; split] <;> omega

theorem overflowSub_narrow16_iff {a b : Int} (ha : InWordRange a) (hb : InWordRange b) :
    overflowSub a b (narrow16 (a - b)) = true ↔ ¬ InWordRange (a - b) := by
  unfold InWordRange at *
  rw [overflowSub_iff, narrow16_toInt, bmod_word_cases (by omega) (by omega)]
  split <;> [skip; split] <;> omega

theorem State.finishAdd_overflow_iff (s : State) (ra : Nibble) {a b : Int} (ha : InWordRange a) (hb : InWordRange b) :
    (s.finishAdd ra a b).flags.f = true ↔ ¬ InWordRange (a + b) := by
  obtain ⟨-, -, hf, -⟩ := s.finishAdd_spec ra a b
  rw [hf, overflowAdd_narrow16_iff ha hb]

theorem State.finishSub_overflow_iff (s : State) (ra : Nibble) {a b : Int} (ha : InWordRange a) (hb : InWordRange b) :
    (s.finishSub ra a b).flags.f = true ↔ ¬ InWordRange (a - b) := by
  obtain ⟨-, -, hf, -⟩ := s.finishSub_spec ra a b
  rw [hf, overflowSub_narrow16_iff ha hb]

theorem State.finishCmp_overflow_iff (s : State) {a b : Int} (ha : InWordRange a) (hb : InWordRange b) :
    (s.finishCmp a b).flags.f = true ↔ ¬ InWordRange (a - b) := by
  obtain ⟨-, hf, -⟩ := s.finishCmp_spec a b
  rw [hf, overflowSub_narrow16_iff ha hb]

/-- Settles O19: registers and immediates are in range, and for such operands the sign rules tell when the exact result is
not. -/
theorem overflowFlagMeansResultOutOfRange : Obligations.OverflowFlagMeansResultOutOfRange := by
  unfold Obligations.OverflowFlagMeansResultOutOfRange
  intro s ra rb imm8
  have hra := s.regInt_inWordRange ra
  have hrb := s.regInt_inWordRange rb
  exact ⟨⟨_, exec_add ra rb s, s.finishAdd_overflow_iff ra hra hrb⟩, ⟨_, exec_sub ra rb s, s.finishSub_overflow_iff ra hra hrb⟩,
    ⟨_, exec_addi ra imm8 s, s.finishAdd_overflow_iff ra hra (immInt_inWordRange _ imm8)⟩,
    ⟨_, exec_cmpi ra imm8 s, s.finishCmp_overflow_iff hra (immInt_inWordRange _ imm8)⟩⟩

/-! ### The logic and move class -/

@[simp] theorem State.finishLogic_reg_self (s : State) (ra : Nibble) (r : Word) : (s.finishLogic ra r).reg ra = r :=
  s.setReg_reg_self ra r

/-- What `finishLogic` does besides its result, the flags told from the destination's new value. -/
theorem State.finishLogic_frame (s : State) (ra : Nibble) (r : Word) :
    FlagsOf ((s.finishLogic ra r).reg ra) (s.finishLogic ra r) ∧ (s.finishLogic ra r).flags.f = s.flags.f ∧
    (s.finishLogic ra r).pc = s.pc + 1 ∧ RegisterOnly [ra] s (s.finishLogic ra r) := by
  obtain ⟨hreg, hframe⟩ := s.finishLogic_spec ra r
  rwa [hreg]

theorem exec_and (ra rb : Nibble) (s : State) : exec (.and ra rb) s = .next (s.finishLogic ra (s.reg ra &&& s.reg rb)) := rfl

theorem exec_or (ra rb : Nibble) (s : State) : exec (.or ra rb) s = .next (s.finishLogic ra (s.reg ra ||| s.reg rb)) := rfl

theorem exec_xor (ra rb : Nibble) (s : State) : exec (.xor ra rb) s = .next (s.finishLogic ra (s.reg ra ^^^ s.reg rb)) := rfl

theorem exec_andi (ra : Nibble) (imm8 : Byte) (s : State) :
    exec (.andi ra imm8) s = .next (s.finishLogic ra (s.reg ra &&& narrow16 (immInt s.cfg.imm8.andi imm8))) := rfl

theorem exec_ori (ra : Nibble) (imm8 : Byte) (s : State) :
    exec (.ori ra imm8) s = .next (s.finishLogic ra (s.reg ra ||| narrow16 (immInt s.cfg.imm8.ori imm8))) := rfl

theorem exec_xori (ra : Nibble) (imm8 : Byte) (s : State) :
    exec (.xori ra imm8) s = .next (s.finishLogic ra (s.reg ra ^^^ narrow16 (immInt s.cfg.imm8.xori imm8))) := rfl

theorem exec_mov (ra rb : Nibble) (s : State) : exec (.mov ra rb) s = .next (s.finishLogic ra (s.reg rb)) := rfl

theorem exec_movi (ra : Nibble) (imm8 : Byte) (s : State) :
    exec (.movi ra imm8) s = .next (s.finishLogic ra (narrow16 (immInt s.cfg.imm8.movi imm8))) := rfl

/-- Settles O20: the three end in `finishLogic`, and the operations on words act bit by bit. -/
theorem logicRegisterFormsEffect : Obligations.LogicRegisterFormsEffect := by
  unfold Obligations.LogicRegisterFormsEffect
  intro s ra rb
  refine ⟨⟨_, exec_and ra rb s, fun k _ => ?_, s.finishLogic_frame ra _⟩,
    ⟨_, exec_or ra rb s, fun k _ => ?_, s.finishLogic_frame ra _⟩,
    ⟨_, exec_xor ra rb s, fun k _ => ?_, s.finishLogic_frame ra _⟩⟩
  · rw [State.finishLogic_reg_self, BitVec.getLsbD_and]
  · rw [State.finishLogic_reg_self, BitVec.getLsbD_or]
  · rw [State.finishLogic_reg_self, BitVec.getLsbD_xor]

/-- The bits of a narrowed immediate under each policy (42_alu.md R138, R139). -/
theorem getLsbD_narrow16_immInt (p : ImmExt) (imm8 : Byte) {k : Nat} (hk : k < 16) :
    (narrow16 (immInt p imm8)).getLsbD k = immBit p imm8 k := by
  cases p with
  | sext =>
    rw [show narrow16 (immInt .sext imm8) = imm8.signExtend 16 from rfl, BitVec.getLsbD_signExtend]
    simp [immBit, hk, BitVec.msb_eq_getLsbD_last]
  | zext =>
    rw [show narrow16 (immInt .zext imm8) = BitVec.ofNat 16 imm8.toNat from BitVec.ofInt_natCast 16 imm8.toNat,
      BitVec.ofNat_toNat, BitVec.getLsbD_setWidth]
    by_cases h8 : k < 8
    · simp [immBit, hk, h8]
    · simp [immBit, h8, BitVec.getLsbD_of_ge imm8 k (Nat.le_of_not_lt h8)]

/-- Settles O21: as O20, with the bits of the narrowed immediate. -/
theorem logicImmediateFormsEffect : Obligations.LogicImmediateFormsEffect := by
  unfold Obligations.LogicImmediateFormsEffect
  intro s ra imm8
  refine ⟨⟨_, exec_andi ra imm8 s, fun k hk => ?_, s.finishLogic_frame ra _⟩,
    ⟨_, exec_ori ra imm8 s, fun k hk => ?_, s.finishLogic_frame ra _⟩,
    ⟨_, exec_xori ra imm8 s, fun k hk => ?_, s.finishLogic_frame ra _⟩⟩
  · rw [State.finishLogic_reg_self, BitVec.getLsbD_and, getLsbD_narrow16_immInt _ _ hk]
  · rw [State.finishLogic_reg_self, BitVec.getLsbD_or, getLsbD_narrow16_immInt _ _ hk]
  · rw [State.finishLogic_reg_self, BitVec.getLsbD_xor, getLsbD_narrow16_immInt _ _ hk]

/-- Narrowing keeps a number that fits. -/
theorem narrow16_toInt_of_inWordRange {n : Int} (h : InWordRange n) : (narrow16 n).toInt = n := by
  obtain ⟨hlo, hhi⟩ := h
  rw [narrow16_toInt, Int.bmod_eq_of_le (by omega) (by omega)]

/-- Settles O22: MOV and MOVI end in `finishLogic`, and an immediate fits in a word. -/
theorem movAndMoviEffect : Obligations.MovAndMoviEffect := by
  unfold Obligations.MovAndMoviEffect
  intro s ra
  constructor
  · intro rb
    exact ⟨_, exec_mov ra rb s, s.finishLogic_reg_self ra _, s.finishLogic_frame ra _⟩
  · intro imm8
    refine ⟨_, exec_movi ra imm8 s, ?_, s.finishLogic_frame ra _⟩
    rw [State.finishLogic_reg_self, narrow16_toInt_of_inWordRange (immInt_inWordRange _ imm8)]

/-- Settles O23, by the value of a signed byte. -/
theorem immediateOperandUnderEachPolicy : Obligations.ImmediateOperandUnderEachPolicy := by
  unfold Obligations.ImmediateOperandUnderEachPolicy
  intro imm8
  refine ⟨rfl, sext8_eq imm8, fun h => ?_⟩
  rw [show immInt .sext imm8 = sext8 imm8 from rfl, sext8_eq, if_pos h]
  rfl

/-! ### Shifts and load upper -/

theorem exec_lsh (ra rb : Nibble) (s : State) :
    exec (.lsh ra rb) s = .next (s.finishMove ra (shiftLeft (s.reg ra) (lshAmount (s.reg rb)))) := rfl

theorem exec_lui (ra : Nibble) (imm8 : Byte) (s : State) : exec (.lui ra imm8) s = .next (s.finishMove ra (imm8 ++ 0#8)) := rfl

/-- Sixteen places push every bit out (decision D20). -/
theorem shiftLeft_of_sixteen_le (v : Word) {n : Nat} (h : 16 ≤ n) : shiftLeft v n = 0 := by
  apply BitVec.eq_of_toNat_eq
  obtain ⟨k, rfl⟩ := Nat.exists_eq_add_of_le h
  rw [shiftLeft_toNat, pow_add, show v.toNat * (2 ^ 16 * 2 ^ k) = 65536 * (v.toNat * 2 ^ k) by ring, Nat.mul_mod_right]
  rfl

theorem toInt_eq_toNat_of_nonneg {v : Word} (h : 0 ≤ v.toInt) : v.toInt = v.toNat := by
  have hcond := BitVec.toInt_eq_toNat_cond v
  split at hcond <;> omega

/-- Settles O24: the amount is the low nibble of a negative register and the whole of any other. -/
theorem lshEffect : Obligations.LshEffect := by
  unfold Obligations.LshEffect
  intro s ra rb
  obtain ⟨hreg, hframe⟩ := s.finishMove_spec ra (shiftLeft (s.reg ra) (lshAmount (s.reg rb)))
  refine ⟨_, exec_lsh ra rb s, ?negative, ?small, ?large, hframe⟩
  case negative =>
    intro hneg
    rw [hreg, shiftLeft_toNat, lshAmount_spec, if_pos hneg]
  case small =>
    intro hnonneg _
    rw [hreg, shiftLeft_toNat, lshAmount_spec, if_neg (by omega)]
  case large =>
    intro hlarge
    have hvalue := toInt_eq_toNat_of_nonneg (v := s.reg rb) (by omega)
    rw [hreg, lshAmount_spec, if_neg (by omega), shiftLeft_of_sixteen_le _ (by omega)]

/-- Settles O25, by the equation of LSHI without a fault. -/
theorem lshiEffect : Obligations.LshiEffect := by
  unfold Obligations.LshiEffect
  intro s ra mag sgn h
  obtain ⟨hreg, hframe⟩ := s.finishMove_spec ra (shiftLeft (s.reg ra) mag.toNat)
  exact ⟨_, exec_lshi_of_nonneg h ra s, by rw [hreg, shiftLeft_toNat], hframe⟩

theorem append_zero_byte_toNat (v : Byte) : (v ++ 0#8 : BitVec (8 + 8)).toNat = v.toNat * 256 := by
  rw [BitVec.toNat_append, BitVec.toNat_ofNat, Nat.zero_mod, Nat.or_zero, Nat.shiftLeft_eq]

/-- Settles O27: the byte stands in the upper half of the word. -/
theorem luiEffect : Obligations.LuiEffect := by
  unfold Obligations.LuiEffect
  intro s ra imm8
  obtain ⟨hreg, hframe⟩ := s.finishMove_spec ra (imm8 ++ 0#8)
  exact ⟨_, exec_lui ra imm8 s, by rw [hreg, append_zero_byte_toNat], hframe⟩

/-! ### Load and store -/

/-- Settles O29: LOAD ends as the shifts do, with the slot of the masked address. -/
theorem loadEffect : Obligations.LoadEffect := by
  unfold Obligations.LoadEffect
  intro s ra rb a ha
  rw [← s.ea_eq_of_reg_emod rb a ha.symm]
  exact ⟨_, exec_load ra rb s, s.finishMove_spec ra _⟩

/-- Settles O30, by the frame of a store. -/
theorem storEffect : Obligations.StorEffect := by
  unfold Obligations.StorEffect
  intro s ra rb
  obtain ⟨hslot, hmem, hregs, hrows, hflags, hfixed⟩ := s.store_spec (s.ea rb) (s.reg ra)
  exact ⟨s.ea_toNat rb, _, exec_stor ra rb s, hslot, hmem, hregs, hrows, rfl, hflags, hfixed, rfl⟩

end Sys2Proof.Machine
end

section
/-!
PROOFS. The effects of the CIM instructions (46_cim.md), from the frames of a row write, a store and the logic class; and
the datapath behind its ports (R193), which answers what the five instructions do.
-/

namespace Sys2Proof.Machine

/-! ### The effects -/

theorem exec_setq (imm4 : Nibble) (s : State) : exec (.setq imm4) s = .next (s.setQ imm4).advance := rfl

theorem State.maskedRow_eq_of_toNat {s : State} {i r : Nibble} (h : r.toNat = (s.reg i).toNat % 16) : s.maskedRow i = r :=
  BitVec.eq_of_toNat_eq ((s.maskedRow_toNat i).trans h.symm)

/-- Settles O37: both end in a row write, STCR at the row its index names and STCM at the masked row. -/
theorem stcrAndStcmEffect : Obligations.StcrAndStcmEffect := by
  unfold Obligations.StcrAndStcmEffect
  intro s ra rb r
  constructor
  · intro hrow
    obtain ⟨hnew, hrows, hregs, hmem, hflags, hfixed⟩ := s.rowWrite_spec r (s.reg ra)
    exact ⟨_, exec_stcr_of_row hrow ra, hnew, hrows, hregs, hmem, rfl, hflags, hfixed, rfl⟩
  · intro a hrow haddr
    obtain ⟨hnew, hrows, hregs, hmem, hflags, hfixed⟩ := s.rowWrite_spec r (s.memRead a)
    have hexec := exec_stcm ra rb s
    rw [State.maskedRow_eq_of_toNat hrow, s.ea_eq_of_reg_emod rb a haddr.symm] at hexec
    exact ⟨_, hexec, hnew, hrows, hregs, hmem, rfl, hflags, hfixed, rfl⟩

/-- Settles O38: with a row number LDCR ends as the logic instructions do. -/
theorem ldcrEffect : Obligations.LdcrEffect := by
  unfold Obligations.LdcrEffect
  intro s ra rb r hrow
  exact ⟨_, exec_ldcr_of_row hrow rb, s.finishLogic_spec rb (s.row r)⟩

/-- Settles O39: SETQ writes `Q` and advances. -/
theorem setqEffect : Obligations.SetqEffect :=
  fun s imm4 => ⟨_, exec_setq imm4 s, rfl, fun _ _ => rfl, fun _ => rfl, fun _ => rfl, rfl, ⟨rfl, rfl, rfl, rfl, rfl⟩, rfl⟩

/-- Nibble `k` of the word CMPT stores, from the exact sum of its lane (46_cim.md R203 to R208). -/
theorem State.nibble_cmptResult_toNat (s : State) {ra r : Nibble} {k : Fin 4} (h : r.toNat = ra.toNat % 4 + 4 * k.val) :
    ((nibble (s.cmptResult ra) k).toNat : Int) =
      (∑ j : Fin 4, snib (s.row r) j * snib (s.reg ra) j).tdiv (2 ^ s.q.toNat) % 16 := by
  rw [State.nibble_cmptResult, cmptRow_eq_of_toNat h, lane_toNat, quant_eq_tdiv, dot_eq_sum]

/-- Settles O40: CMPT ends in a store, of a word whose nibbles are known. -/
theorem cmptEffect : Obligations.CmptEffect := by
  unfold Obligations.CmptEffect
  intro s ra rb
  obtain ⟨hslot, hmem, hregs, hrows, hflags, hfixed⟩ := s.store_spec (s.ea rb) (s.cmptResult ra)
  refine ⟨_, exec_cmpt ra rb s, ?nibbles, s.ea_toNat rb, hmem, hregs, hrows, rfl, hflags, hfixed, rfl⟩
  case nibbles =>
    intro k r hr
    rw [hslot, s.nibble_cmptResult_toNat hr]

/-! ### The datapath behind its ports -/

section
variable (s : State) (ra rb imm4 : Nibble)

theorem exec_stcr_eq_cimStep : exec (.stcr ra rb) s = .next (s.cimStep .stcr ra rb imm4) := by
  obtain ⟨r, hrow⟩ | hrow := row_or_no_row (s.reg rb).toInt
  · have hport : rowOfInt (sint16 (s.reg rb)) = some r := (rowOfInt_eq_some _ r).mpr hrow
    rw [exec_stcr_of_row hrow]
    simp only [State.cimStep, cimDatapath, State.cimInputs, hport]
    rfl
  · have hport : rowOfInt (sint16 (s.reg rb)) = none := (rowOfInt_eq_none _).mpr hrow
    rw [exec_stcr_of_no_row hrow]
    simp only [State.cimStep, cimDatapath, State.cimInputs, hport]
    rfl

theorem exec_stcm_eq_cimStep : exec (.stcm ra rb) s = .next (s.cimStep .stcm ra rb imm4) := rfl

theorem exec_ldcr_eq_cimStep : exec (.ldcr ra rb) s = .next (s.cimStep .ldcr ra rb imm4) := by
  obtain ⟨r, hrow⟩ | hrow := row_or_no_row (s.reg ra).toInt
  · have hport : rowOfInt (sint16 (s.reg ra)) = some r := (rowOfInt_eq_some _ r).mpr hrow
    rw [exec_ldcr_of_row hrow]
    simp only [State.cimStep, cimDatapath, State.cimInputs, hport]
    rfl
  · have hport : rowOfInt (sint16 (s.reg ra)) = none := (rowOfInt_eq_none _).mpr hrow
    rw [exec_ldcr_of_no_row hrow]
    simp only [State.cimStep, cimDatapath, State.cimInputs, hport]
    rfl

theorem exec_setq_eq_cimStep : exec (.setq imm4) s = .next (s.cimStep .setq ra rb imm4) := rfl

theorem exec_cmpt_eq_cimStep : exec (.cmpt ra rb) s = .next (s.cimStep .cmpt ra rb imm4) := rfl

end

/-- Settles O46: one equation per command; STCR and LDCR fault through the port exactly when their index is no row. -/
theorem cimPortsRefineTheInstructions : Obligations.CimPortsRefineTheInstructions :=
  fun s ra rb imm4 => ⟨exec_stcr_eq_cimStep s ra rb imm4, exec_stcm_eq_cimStep s ra rb imm4,
    exec_ldcr_eq_cimStep s ra rb imm4, exec_setq_eq_cimStep s ra rb imm4, exec_cmpt_eq_cimStep s ra rb imm4⟩

end Sys2Proof.Machine
end

section
/-!
PROOFS. The assembler (30_encoding.md R63 to R73): pass 1 counts the instructions it queues, pass 2 gives one word or one
diagnostic for each.
-/

namespace Sys2Proof.Machine

/-! ### Pass 1 -/

/-- The current address counts the queued instructions, and each has its place in the queue as its address
(30_encoding.md R64). -/
def Pass1.Counted (p : Pass1) : Prop :=
  p.address = p.queue.length ∧ ∀ (k : Nat) (x : Queued), p.queue[k]? = some x → x.address = k

theorem Pass1.Counted.recordLabel {p : Pass1} (h : p.Counted) (line : Nat) (label : Text) :
    (Machine.recordLabel line label p).Counted := h

theorem Pass1.Counted.enqueue {p : Pass1} (h : p.Counted) (line : Nat) (text : Text) :
    (Machine.enqueue line text p).Counted := by
  obtain ⟨hcount, hplaces⟩ := h
  unfold Machine.enqueue
  split
  · exact ⟨hcount, hplaces⟩
  · refine ⟨by simp [hcount], fun k x hx => ?_⟩
    rw [List.getElem?_append] at hx
    split at hx
    · exact hplaces k x hx
    · rw [List.getElem?_singleton] at hx
      split at hx
      · cases hx
        show p.address = k
        omega
      · cases hx

theorem Pass1.Counted.pass1Line {p : Pass1} (h : p.Counted) (line : Nat) (text : Text) :
    (Machine.pass1Line line text p).Counted := by
  unfold Machine.pass1Line
  split
  · exact (h.recordLabel line _).enqueue line _
  · exact h.enqueue line _

theorem Pass1.Counted.pass1 {p : Pass1} (h : p.Counted) (n : Nat) (lines : List Text) : (Machine.pass1 n lines p).Counted := by
  induction lines generalizing n p with
  | nil => exact h
  | cons t ts ih => exact ih (h.pass1Line n t) (n + 1)

theorem labelPass_counted (src : Text) : (labelPass src).Counted :=
  Pass1.Counted.pass1 (p := ⟨0, [], [], []⟩) ⟨rfl, nofun⟩ 1 (sourceLines src)

/-! ### Pass 2 -/

theorem okWords_length_add_errorDiagnostics_length (rs : List (Except Diagnostic Word)) :
    (okWords rs).length + (errorDiagnostics rs).length = rs.length := by
  induction rs with
  | nil => rfl
  | cons r rs ih =>
    cases r with
    | ok w => simp only [okWords, errorDiagnostics, List.length_cons]; omega
    | error e => simp only [okWords, errorDiagnostics, List.length_cons]; omega

/-- Without a diagnostic every line has given a word. -/
theorem map_ok_okWords {rs : List (Except Diagnostic Word)} (h : errorDiagnostics rs = []) : (okWords rs).map .ok = rs := by
  induction rs with
  | nil => rfl
  | cons r rs ih =>
    cases r with
    | ok w => rw [okWords, List.map_cons, ih h]
    | error e => cases h

theorem Assembly.program_eq_some_iff {a : Assembly} {prog : List Word} :
    a.program = some prog ↔ a.diagnostics = [] ∧ a.words.length ≤ 32768 ∧ prog = a.words := by
  simp only [Assembly.program, programWf, Option.ite_none_right_eq_some, Option.some.injEq, Bool.and_eq_true,
    List.isEmpty_iff, decide_eq_true_eq, and_assoc, eq_comm (a := prog)]

theorem Assembly.program_eq_none_iff {a : Assembly} :
    a.program = none ↔ a.diagnostics ≠ [] ∨ 32768 < a.words.length := by
  rw [Option.eq_none_iff_forall_ne_some]
  constructor
  · intro hnone
    by_cases hclean : a.diagnostics = []
    · exact .inr (Nat.lt_of_not_le fun hlen => hnone _ (Assembly.program_eq_some_iff.mpr ⟨hclean, hlen, rfl⟩))
    · exact .inl hclean
  · intro h prog hprog
    obtain ⟨hclean, hlen, -⟩ := Assembly.program_eq_some_iff.mp hprog
    exact h.elim (· hclean) (Nat.not_lt_of_le hlen)

theorem assemble_words_getElem {reg : Registry} {src : Text} (h : (assemble reg src).diagnostics = []) {k : Nat} {x : Queued}
    (hx : (labelPass src).queue[k]? = some x) :
    ∃ w, (assemble reg src).words[k]? = some w ∧ assembleLine reg (labelPass src).symbols x = .ok w := by
  have hline : ((labelPass src).queue.map (assembleLine reg (labelPass src).symbols))[k]? =
      some (assembleLine reg (labelPass src).symbols x) := by rw [List.getElem?_map, hx, Option.map_some]
  rw [← map_ok_okWords h, List.getElem?_map, Option.map_eq_some_iff] at hline
  obtain ⟨w, hword, hok⟩ := hline
  exact ⟨w, hword, hok.symm⟩

/-- Settles O12: pass 1 keeps count, pass 2 accounts for each instruction, and a program is a clean assembly of legal
length. -/
theorem assemblyAccountsForEveryInstruction : Obligations.AssemblyAccountsForEveryInstruction := by
  unfold Obligations.AssemblyAccountsForEveryInstruction
  intro reg src
  obtain ⟨-, hplaces⟩ := labelPass_counted src
  have hcount : (assemble reg src).words.length + (assemble reg src).diagnostics.length = (labelPass src).queue.length :=
    (okWords_length_add_errorDiagnostics_length _).trans (List.length_map _)
  refine ⟨hplaces, hcount, fun hclean hlen => Assembly.program_eq_some_iff.mpr ⟨hclean, hlen, rfl⟩,
    Assembly.program_eq_none_iff.mpr, ?program⟩
  case program =>
    intro prog hprog
    obtain ⟨hclean, hlen, rfl⟩ := Assembly.program_eq_some_iff.mp hprog
    rw [hclean] at hcount
    exact ⟨hcount, hlen, fun _ _ => assemble_words_getElem hclean⟩

end Sys2Proof.Machine
end
